-- ==== Sys2Proof/Word.lean ====
section
/-! DEFINITION. The word types of the CORE (00_scope.md R7, R13): bytes, 16-bit words, 12-bit addresses, 4-bit indices. -/

namespace Sys2Proof

/-- A register, timer or memory cell: 8 bits, unsigned (R7 `V_BITS`, `TIMER_BITS`). -/
abbrev Byte := BitVec 8

/-- An instruction word, a pc value, a stack entry or the stored index register: 16 bits (R7). -/
abbrev Word := BitVec 16

/-- An address of `mem`, 0x000..0xFFF (R7 `ADDR_BITS`, R50). -/
abbrev Addr := BitVec 12

/-- A nibble of the instruction word (R71, R74). -/
abbrev Nibble := BitVec 4

/-- The index of a general register, V0..VF (R21, R74). -/
abbrev RegIdx := BitVec 4

/-- The index of VF, the flag register (R22). -/
abbrev VF : RegIdx := 0xF#4

/-- `MEM_SIZE` (R7). -/
abbrev memSize : Nat := 4096

/-- `PROGRAM_START` (R7). -/
abbrev programStart : Nat := 0x200

/-- `MAX_IMAGE` (R7, R262). -/
abbrev maxImage : Nat := memSize - programStart

end Sys2Proof
end

