-- ==== Sys2Proof/Config.lean ====
section
/-! DEFINITION. What an implementation fixes (R8, R9, R12) and the free values (R10, R11). -/

namespace Sys2Proof

/-- The machine's named parameters. A machine carries its own in `State.cfg`, so that a statement about every state
holds for every choice of them (log 5). -/
structure Config where
  /-- `FONT_BASE`, the address of the first byte of glyph 0 (R8). -/
  fontBase : Addr
  /-- `FONT_DATA`, 16 glyphs of 5 bytes in the order 0 to F (R9, R33). -/
  fontData : Vector Byte 80
  /-- `QUIRK_ADD_I_VF`: whether `ADD I, Vx` writes VF (R12, R171). -/
  quirkAddIVf : Bool
  deriving DecidableEq, Repr

/-- PRESUMED (by the spec, G3; log 6): the default `FONT_DATA` of R33, glyphs 0 to 7. -/
def Config.fontLow : Vector Byte 40 :=
  #v[0xF0, 0x90, 0x90, 0x90, 0xF0,  0x20, 0x60, 0x20, 0x20, 0x70,
     0xF0, 0x10, 0xF0, 0x80, 0xF0,  0xF0, 0x10, 0xF0, 0x10, 0xF0,
     0x90, 0x90, 0xF0, 0x10, 0x10,  0xF0, 0x80, 0xF0, 0x10, 0xF0,
     0xF0, 0x80, 0xF0, 0x90, 0xF0,  0xF0, 0x10, 0x20, 0x40, 0x40]

/-- PRESUMED (by the spec, G3; log 6): the default `FONT_DATA` of R33, glyphs 8 to F. -/
def Config.fontHigh : Vector Byte 40 :=
  #v[0xF0, 0x90, 0xF0, 0x90, 0xF0,  0xF0, 0x90, 0xF0, 0x10, 0xF0,
     0xF0, 0x90, 0xF0, 0x90, 0x90,  0xE0, 0x90, 0xE0, 0x90, 0xE0,
     0xF0, 0x80, 0x80, 0x80, 0xF0,  0xE0, 0x90, 0x90, 0x90, 0xE0,
     0xF0, 0x80, 0xF0, 0x80, 0xF0,  0xF0, 0x80, 0xF0, 0x80, 0x80]

/-- The parameters of the constant `State.reset`: DESIGN CHOICE (log 5) `FONT_BASE = 0x000`, which the spec leaves open
and its test vectors take (R8); the default `FONT_DATA` (R33) and the default `QUIRK_ADD_I_VF = false` (R12). -/
def Config.default : Config :=
  { fontBase := 0x000, fontData := Config.fontLow ++ Config.fontHigh, quirkAddIVf := false }

/-- The byte an address holds after reset (R32): the font from `FONT_BASE`, 0 elsewhere. What an unlisted address of the
model's memory reads as. -/
def Config.resetByte (c : Config) (a : Nat) : Byte :=
  if h : c.fontBase.toNat ≤ a ∧ a < c.fontBase.toNat + 80 then
    c.fontData[a - c.fontBase.toNat]'(by omega)
  else 0

/-- A free value (R10; log 2): the byte the `n`-th draw gives to `RND`. Nothing constrains it. -/
opaque Config.drawByte : Nat → Byte

/-- A free value (R11; log 3): which of several pressed keys the `n`-th draw picks, as a position taken modulo their
number. Nothing constrains it. -/
opaque Config.drawKey : Nat → Nat

/-- A free value (R242; log 16): what the port `fault_pc` shows while no fault is recorded, at a count of draws. Nothing
constrains it. DESIGN CHOICE: it is a function of that count alone. -/
opaque Config.idleFaultPc : Nat → Word

end Sys2Proof
end

