-- ==== Sys2Proof/Syntax.lean ====
section
/-! DEFINITION. The instruction set: one constructor per row of R72 and of opcode_table.json. -/

namespace Sys2Proof

/-- The 34 instructions (R72). Operand types are the field widths of R71, so that every term is an instruction some word
encodes (R77, R83). `shr` and `shl` keep the `y` field, which R78 has decoded and R150, R152 ignore (log 14). -/
inductive Instr where
  /-- `00E0` CLS (R190). -/
  | cls
  /-- `00EE` RET (R121). -/
  | ret
  /-- `1nnn` JP addr (R123). -/
  | jp (nnn : Addr)
  /-- `2nnn` CALL addr (R122). -/
  | call (nnn : Addr)
  /-- `3xkk` SE Vx, byte (R124). -/
  | seByte (x : RegIdx) (kk : Byte)
  /-- `4xkk` SNE Vx, byte (R125). -/
  | sneByte (x : RegIdx) (kk : Byte)
  /-- `5xy0` SE Vx, Vy (R126). -/
  | seReg (x y : RegIdx)
  /-- `6xkk` LD Vx, byte (R142). -/
  | ldByte (x : RegIdx) (kk : Byte)
  /-- `7xkk` ADD Vx, byte (R143). -/
  | addByte (x : RegIdx) (kk : Byte)
  /-- `8xy0` LD Vx, Vy (R144). -/
  | ldReg (x y : RegIdx)
  /-- `8xy1` OR Vx, Vy (R145). -/
  | orReg (x y : RegIdx)
  /-- `8xy2` AND Vx, Vy (R146). -/
  | andReg (x y : RegIdx)
  /-- `8xy3` XOR Vx, Vy (R147). -/
  | xorReg (x y : RegIdx)
  /-- `8xy4` ADD Vx, Vy (R148). -/
  | addReg (x y : RegIdx)
  /-- `8xy5` SUB Vx, Vy (R149). -/
  | subReg (x y : RegIdx)
  /-- `8xy6` SHR Vx, with Vy ignored (R150). -/
  | shr (x y : RegIdx)
  /-- `8xy7` SUBN Vx, Vy (R151). -/
  | subn (x y : RegIdx)
  /-- `8xyE` SHL Vx, with Vy ignored (R152). -/
  | shl (x y : RegIdx)
  /-- `9xy0` SNE Vx, Vy (R127). -/
  | sneReg (x y : RegIdx)
  /-- `Annn` LD I, addr (R170). -/
  | ldI (nnn : Addr)
  /-- `Bnnn` JP V0, addr (R128). -/
  | jpV0 (nnn : Addr)
  /-- `Cxkk` RND Vx, byte (R153). -/
  | rnd (x : RegIdx) (kk : Byte)
  /-- `Dxyn` DRW Vx, Vy, nibble (R191). -/
  | drw (x y : RegIdx) (n : Nibble)
  /-- `Ex9E` SKP Vx (R204). -/
  | skp (x : RegIdx)
  /-- `ExA1` SKNP Vx (R205). -/
  | sknp (x : RegIdx)
  /-- `Fx07` LD Vx, DT (R201). -/
  | ldVxDt (x : RegIdx)
  /-- `Fx0A` LD Vx, K (R206). -/
  | ldVxK (x : RegIdx)
  /-- `Fx15` LD DT, Vx (R202). -/
  | ldDtVx (x : RegIdx)
  /-- `Fx18` LD ST, Vx (R203). -/
  | ldStVx (x : RegIdx)
  /-- `Fx1E` ADD I, Vx (R171). -/
  | addI (x : RegIdx)
  /-- `Fx29` LD F, Vx (R172). -/
  | ldF (x : RegIdx)
  /-- `Fx33` LD B, Vx (R173). -/
  | ldB (x : RegIdx)
  /-- `Fx55` LD [I], Vx (R174). -/
  | storeRegs (x : RegIdx)
  /-- `Fx65` LD Vx, [I] (R175). -/
  | loadRegs (x : RegIdx)
  deriving DecidableEq, Repr

end Sys2Proof
end

