-- ==== Sys2Proof/WellFormed.lean ====
section
/-! DEFINITION. What is well formed before any state: a word by the opcode table (R72, R75), the parameters (R8, R9), a
program image (R262). A term of `Instr` needs no check: its operand types are the field widths (R71, R77, R83). -/

namespace Sys2Proof

/-- A row of opcode_table.json: a word `w` is of the row when `w AND mask = pattern` (R75). -/
structure OpRow where
  pattern : Word
  mask : Word
  deriving DecidableEq, Repr

/-- Whether a word is of a row. -/
def OpRow.fits (r : OpRow) (w : Word) : Bool := w &&& r.mask == r.pattern

/-- Rows 0 to 7 of R72: families 0 to 7. -/
def opcodeRowsLow : List OpRow :=
  [⟨0x00E0, 0xFFFF⟩,
   ⟨0x00EE, 0xFFFF⟩,
   ⟨0x1000, 0xF000⟩,
   ⟨0x2000, 0xF000⟩,
   ⟨0x3000, 0xF000⟩,
   ⟨0x4000, 0xF000⟩,
   ⟨0x5000, 0xF00F⟩,
   ⟨0x6000, 0xF000⟩,
   ⟨0x7000, 0xF000⟩]

/-- Rows of family 8 of R72. -/
def opcodeRowsAlu : List OpRow :=
  [⟨0x8000, 0xF00F⟩,
   ⟨0x8001, 0xF00F⟩,
   ⟨0x8002, 0xF00F⟩,
   ⟨0x8003, 0xF00F⟩,
   ⟨0x8004, 0xF00F⟩,
   ⟨0x8005, 0xF00F⟩,
   ⟨0x8006, 0xF00F⟩,
   ⟨0x8007, 0xF00F⟩,
   ⟨0x800E, 0xF00F⟩]

/-- Rows 9 to E of R72. -/
def opcodeRowsHigh : List OpRow :=
  [⟨0x9000, 0xF00F⟩,
   ⟨0xA000, 0xF000⟩,
   ⟨0xB000, 0xF000⟩,
   ⟨0xC000, 0xF000⟩,
   ⟨0xD000, 0xF000⟩,
   ⟨0xE09E, 0xF0FF⟩,
   ⟨0xE0A1, 0xF0FF⟩]

/-- Rows of family F of R72. -/
def opcodeRowsF : List OpRow :=
  [⟨0xF007, 0xF0FF⟩,
   ⟨0xF00A, 0xF0FF⟩,
   ⟨0xF015, 0xF0FF⟩,
   ⟨0xF018, 0xF0FF⟩,
   ⟨0xF01E, 0xF0FF⟩,
   ⟨0xF029, 0xF0FF⟩,
   ⟨0xF033, 0xF0FF⟩,
   ⟨0xF055, 0xF0FF⟩,
   ⟨0xF065, 0xF0FF⟩]

/-- The 34 rows of R72, in the order of opcode_table.json. -/
def opcodeTable : List OpRow := opcodeRowsLow ++ opcodeRowsAlu ++ opcodeRowsHigh ++ opcodeRowsF

/-- A word is legal when it is of some row (R82, R83, R85). -/
def wordWf (w : Word) : Bool := opcodeTable.any fun r => r.fits w

/-- The row of each instruction in opcode_table.json (R72). -/
def Instr.row : Instr → OpRow
  | .cls => ⟨0x00E0, 0xFFFF⟩
  | .ret => ⟨0x00EE, 0xFFFF⟩
  | .jp _ => ⟨0x1000, 0xF000⟩
  | .call _ => ⟨0x2000, 0xF000⟩
  | .seByte _ _ => ⟨0x3000, 0xF000⟩
  | .sneByte _ _ => ⟨0x4000, 0xF000⟩
  | .seReg _ _ => ⟨0x5000, 0xF00F⟩
  | .ldByte _ _ => ⟨0x6000, 0xF000⟩
  | .addByte _ _ => ⟨0x7000, 0xF000⟩
  | .ldReg _ _ => ⟨0x8000, 0xF00F⟩
  | .orReg _ _ => ⟨0x8001, 0xF00F⟩
  | .andReg _ _ => ⟨0x8002, 0xF00F⟩
  | .xorReg _ _ => ⟨0x8003, 0xF00F⟩
  | .addReg _ _ => ⟨0x8004, 0xF00F⟩
  | .subReg _ _ => ⟨0x8005, 0xF00F⟩
  | .shr _ _ => ⟨0x8006, 0xF00F⟩
  | .subn _ _ => ⟨0x8007, 0xF00F⟩
  | .shl _ _ => ⟨0x800E, 0xF00F⟩
  | .sneReg _ _ => ⟨0x9000, 0xF00F⟩
  | .ldI _ => ⟨0xA000, 0xF000⟩
  | .jpV0 _ => ⟨0xB000, 0xF000⟩
  | .rnd _ _ => ⟨0xC000, 0xF000⟩
  | .drw _ _ _ => ⟨0xD000, 0xF000⟩
  | .skp _ => ⟨0xE09E, 0xF0FF⟩
  | .sknp _ => ⟨0xE0A1, 0xF0FF⟩
  | .ldVxDt _ => ⟨0xF007, 0xF0FF⟩
  | .ldVxK _ => ⟨0xF00A, 0xF0FF⟩
  | .ldDtVx _ => ⟨0xF015, 0xF0FF⟩
  | .ldStVx _ => ⟨0xF018, 0xF0FF⟩
  | .addI _ => ⟨0xF01E, 0xF0FF⟩
  | .ldF _ => ⟨0xF029, 0xF0FF⟩
  | .ldB _ => ⟨0xF033, 0xF0FF⟩
  | .storeRegs _ => ⟨0xF055, 0xF0FF⟩
  | .loadRegs _ => ⟨0xF065, 0xF0FF⟩

/-- The parameters' own conditions: the font lies below `PROGRAM_START` (R8), and each glyph row is in bits 7..4 (D13). -/
def Config.wf (c : Config) : Bool :=
  decide (c.fontBase.toNat + 80 ≤ programStart) && c.fontData.toList.all fun b => b &&& 0x0F == 0

/-- An image that `load` accepts: at most `MAX_IMAGE` bytes (R262). -/
def imageWf (image : List Byte) : Bool := decide (image.length ≤ maxImage)

end Sys2Proof
end

