-- ==== Sys2Proof/Decode.lean ====
section
/-! DEFINITION. The decoder of R75, total on any word and rejecting by name, and the encoder (R71 to R73). The bit
patterns are the spec's from general knowledge (G1, G2; log 7). -/

namespace Sys2Proof

/-- `op = w[15:12]` (R71). -/
def opField (w : Word) : Nibble := w.extractLsb' 12 4
/-- `x = w[11:8]` (R71). -/
def xField (w : Word) : RegIdx := w.extractLsb' 8 4
/-- `y = w[7:4]` (R71). -/
def yField (w : Word) : RegIdx := w.extractLsb' 4 4
/-- `n = w[3:0]` (R71). -/
def nField (w : Word) : Nibble := w.extractLsb' 0 4
/-- `kk = w[7:0]` (R71). -/
def kkField (w : Word) : Byte := w.extractLsb' 0 8
/-- `nnn = w[11:0]` (R71). -/
def nnnField (w : Word) : Addr := w.extractLsb' 0 12

/-- What the decoder answers: an instruction, or `Unknown(word)` (R75). -/
inductive Decoded where
  /-- One of the 34 instructions. -/
  | instr (i : Instr)
  /-- No row of R72: executing the word raises `UnknownOpcode` (R82, R103). -/
  | unknown (w : Word)
  deriving DecidableEq, Repr

/-- Family 0: all 16 bits are compared (R76, R84). -/
def decodeFamily0 (w : Word) : Decoded :=
  if w = 0x00E0 then .instr .cls
  else if w = 0x00EE then .instr .ret
  else .unknown w

/-- Family 8, by the low nibble (R78). -/
def decodeFamily8 (w : Word) : Decoded :=
  let x := xField w
  let y := yField w
  match nField w with
  | 0x0#4 => .instr (.ldReg x y)
  | 0x1#4 => .instr (.orReg x y)
  | 0x2#4 => .instr (.andReg x y)
  | 0x3#4 => .instr (.xorReg x y)
  | 0x4#4 => .instr (.addReg x y)
  | 0x5#4 => .instr (.subReg x y)
  | 0x6#4 => .instr (.shr x y)
  | 0x7#4 => .instr (.subn x y)
  | 0xE#4 => .instr (.shl x y)
  | _ => .unknown w

/-- Family E, by the low byte (R80). -/
def decodeFamilyE (w : Word) : Decoded :=
  match kkField w with
  | 0x9E#8 => .instr (.skp (xField w))
  | 0xA1#8 => .instr (.sknp (xField w))
  | _ => .unknown w

/-- Family F, by the low byte (R81). -/
def decodeFamilyF (w : Word) : Decoded :=
  let x := xField w
  match kkField w with
  | 0x07#8 => .instr (.ldVxDt x)
  | 0x0A#8 => .instr (.ldVxK x)
  | 0x15#8 => .instr (.ldDtVx x)
  | 0x18#8 => .instr (.ldStVx x)
  | 0x1E#8 => .instr (.addI x)
  | 0x29#8 => .instr (.ldF x)
  | 0x33#8 => .instr (.ldB x)
  | 0x55#8 => .instr (.storeRegs x)
  | 0x65#8 => .instr (.loadRegs x)
  | _ => .unknown w

/-- The decoder, a pure function of the word (R75, R77, R79). The last arm is `op = 0xF`. -/
def decode (w : Word) : Decoded :=
  match opField w with
  | 0x0#4 => decodeFamily0 w
  | 0x1#4 => .instr (.jp (nnnField w))
  | 0x2#4 => .instr (.call (nnnField w))
  | 0x3#4 => .instr (.seByte (xField w) (kkField w))
  | 0x4#4 => .instr (.sneByte (xField w) (kkField w))
  | 0x5#4 => if nField w = 0 then .instr (.seReg (xField w) (yField w)) else .unknown w
  | 0x6#4 => .instr (.ldByte (xField w) (kkField w))
  | 0x7#4 => .instr (.addByte (xField w) (kkField w))
  | 0x8#4 => decodeFamily8 w
  | 0x9#4 => if nField w = 0 then .instr (.sneReg (xField w) (yField w)) else .unknown w
  | 0xA#4 => .instr (.ldI (nnnField w))
  | 0xB#4 => .instr (.jpV0 (nnnField w))
  | 0xC#4 => .instr (.rnd (xField w) (kkField w))
  | 0xD#4 => .instr (.drw (xField w) (yField w) (nField w))
  | 0xE#4 => decodeFamilyE w
  | _ => decodeFamilyF w

/-- Format NNN: `oooo nnnn nnnn nnnn` (R73). -/
def wordNNN (op : Nibble) (nnn : Addr) : Word := op ++ nnn
/-- Formats XKK and XSEL: `oooo xxxx kkkk kkkk`, `kk` the selector byte in XSEL (R73). -/
def wordXKK (op : Nibble) (x : RegIdx) (kk : Byte) : Word := op ++ x ++ kk
/-- Formats XYN and XY0: `oooo xxxx yyyy nnnn`, `n = 0` in XY0 (R73). -/
def wordXYN (op : Nibble) (x y : RegIdx) (n : Nibble) : Word := op ++ x ++ y ++ n

/-- The word of an instruction (R72, R73). -/
def encode : Instr → Word
  | .cls => 0x00E0
  | .ret => 0x00EE
  | .jp nnn => wordNNN 0x1 nnn
  | .call nnn => wordNNN 0x2 nnn
  | .seByte x kk => wordXKK 0x3 x kk
  | .sneByte x kk => wordXKK 0x4 x kk
  | .seReg x y => wordXYN 0x5 x y 0x0
  | .ldByte x kk => wordXKK 0x6 x kk
  | .addByte x kk => wordXKK 0x7 x kk
  | .ldReg x y => wordXYN 0x8 x y 0x0
  | .orReg x y => wordXYN 0x8 x y 0x1
  | .andReg x y => wordXYN 0x8 x y 0x2
  | .xorReg x y => wordXYN 0x8 x y 0x3
  | .addReg x y => wordXYN 0x8 x y 0x4
  | .subReg x y => wordXYN 0x8 x y 0x5
  | .shr x y => wordXYN 0x8 x y 0x6
  | .subn x y => wordXYN 0x8 x y 0x7
  | .shl x y => wordXYN 0x8 x y 0xE
  | .sneReg x y => wordXYN 0x9 x y 0x0
  | .ldI nnn => wordNNN 0xA nnn
  | .jpV0 nnn => wordNNN 0xB nnn
  | .rnd x kk => wordXKK 0xC x kk
  | .drw x y n => wordXYN 0xD x y n
  | .skp x => wordXKK 0xE x 0x9E
  | .sknp x => wordXKK 0xE x 0xA1
  | .ldVxDt x => wordXKK 0xF x 0x07
  | .ldVxK x => wordXKK 0xF x 0x0A
  | .ldDtVx x => wordXKK 0xF x 0x15
  | .ldStVx x => wordXKK 0xF x 0x18
  | .addI x => wordXKK 0xF x 0x1E
  | .ldF x => wordXKK 0xF x 0x29
  | .ldB x => wordXKK 0xF x 0x33
  | .storeRegs x => wordXKK 0xF x 0x55
  | .loadRegs x => wordXKK 0xF x 0x65

/-- Big-endian: the first byte is the high byte (R52). -/
def joinBytes (hi lo : Byte) : Word := hi ++ lo
/-- The byte of a word stored at the lower address (R52). -/
def highByte (w : Word) : Byte := w.extractLsb' 8 8
/-- The byte of a word stored at the higher address (R52). -/
def lowByte (w : Word) : Byte := w.extractLsb' 0 8

/-- The decoder on the bytes of memory in address order: the first instruction and the bytes after it; `none` when
fewer than two bytes are given (R52, R70). -/
def decodeBytes : List Byte → Option (Decoded × List Byte)
  | hi :: lo :: rest => some (decode (joinBytes hi lo), rest)
  | _ => none

/-- The word of a table row's `nbits` bits, every bit above them 0. Every instruction is one 16-bit word, numbered as the
opcode table numbers it (R13, R70). -/
def tableWord (nbits w : Nat) : Word := BitVec.ofNat 16 (w % 2 ^ nbits)

/-- The instruction the decoder reads from a table word laid out in memory (R52); `none` for an Unknown word. -/
def decodeTableWord (nbits w : Nat) : Option Instr :=
  match decodeBytes [highByte (tableWord nbits w), lowByte (tableWord nbits w)] with
  | some (.instr i, _) => some i
  | _ => none

end Sys2Proof
end

