-- ==== Sys2Proof/Machine/State.lean ====
section
/-! DEFINITION. The CORE's complete state (R20), the reasons a step can stop, and the state after reset (R260). -/

namespace Sys2Proof.Machine

/-- The fault kinds of R220. A fault of the CORE is part of its state (R34, R35), so raising one is a next state. -/
inductive FaultKind where
  /-- A CALL at `SP = 16` (R122). -/
  | stackOverflow
  /-- A RET at `SP = 0` (R121). -/
  | stackUnderflow
  /-- A fetch, sprite read, BCD, register dump or register load above 0xFFF (R56, R101). -/
  | outOfBoundsMemoryAccess
  /-- An Unknown word (R103). -/
  | unknownOpcode
  /-- A `load` of more than 3584 bytes (R262). -/
  | invalidImageSize
  /-- SKP or SKNP with `V[x] > 15` (R204, R205). -/
  | keyIndexOutOfRange
  deriving DecidableEq, Repr

/-- The fault record (R35). -/
structure FaultRecord where
  /-- The kind of the fault. -/
  kind : FaultKind
  /-- The instruction word, or `none` when no word was fetched. -/
  word : Option Word
  /-- The value of `pc` when the fault was raised. -/
  pc : Word
  deriving DecidableEq, Repr

/-- The engine mode (R34). -/
inductive Mode where
  /-- The next `step()` fetches and executes at `pc`. -/
  | running
  /-- A `LD Vx, K` at `pc` is waiting for a key; `x` is the register to receive it. -/
  | awaitingKey (x : RegIdx)
  /-- A fault has been raised, and `step()` does nothing. -/
  | faulted
  deriving DecidableEq, Repr

/-- Memory: address and byte pairs, addresses strictly rising, no entry equal to what an unlisted address reads as. -/
abbrev Memory := List Host.Cell

/-- The display buffer (R30): entry `y` is row `y` from the top, and its bit `x` is the pixel of column `x` from the
left. -/
abbrev Display := Vector (BitVec 64) 32

/-- The CORE's state (R20), then two fields of the model's own: the parameters and the count of draws (logs 4, 5). -/
structure State where
  /-- The general registers V0..VF (R21, R22). -/
  V : Vector Byte 16
  /-- The index register, masked to 12 bits on every write (R24). -/
  I : Word
  /-- The program counter (R25). -/
  pc : Word
  /-- The return stack (R27). -/
  stack : Vector Word 16
  /-- The stack depth, 0..16 (R27). -/
  SP : Fin 17
  /-- The delay timer (R28). -/
  DT : Byte
  /-- The sound timer (R28). -/
  ST : Byte
  /-- The input latch: `true` is pressed (R29). -/
  key : Vector Bool 16
  /-- The display buffer (R30). -/
  disp : Display
  /-- The display-dirty flag (R31). -/
  redraw : Bool
  /-- The engine mode (R34). -/
  mode : Mode
  /-- The fault record (R35). -/
  fault : Option FaultRecord
  /-- The 4096 bytes of memory (R32, R50). -/
  mem : Memory
  /-- The MODEL's own field: the machine's parameters (R8, R9, R12). Nothing writes it. -/
  cfg : Config
  /-- The MODEL's own field: how many free values have been drawn (R10, R11). -/
  draws : Nat
  deriving DecidableEq, Repr

/-- A Lean-level fault of a step. There is none: every fault of the spec is a next state whose mode is `faulted` (R221,
R100), so `Outcome.fault` is never answered (log 1). Safe. -/
inductive Fault
  deriving DecidableEq, Repr

/-- A step that the model gives no meaning. -/
inductive Refusal where
  /-- An arm of `exec` whose instruction has no meaning in the model; raised by no arm now. Safe. -/
  | notModelled (mnemonic : String)
  deriving DecidableEq, Repr

/-- The machine right after reset (R260, R261): memory lists nothing, so every address reads as its reset content (R32).
DESIGN CHOICE: every key released (R29 leaves the latch to the launch premise; log 8), the default parameters (log 5),
no draw made yet (log 4). -/
def State.reset : State where
  V := Vector.replicate 16 0
  I := 0
  pc := 0x200
  stack := Vector.replicate 16 0
  SP := 0
  DT := 0
  ST := 0
  key := Vector.replicate 16 false
  disp := Vector.replicate 32 0
  redraw := false
  mode := .running
  fault := none
  mem := []
  cfg := Config.default
  draws := 0

end Sys2Proof.Machine
end

