-- ==== Sys2Proof/Machine/Ops.lean ====
section
/-! DEFINITION. The named operations over memory, registers, stack, display and keys; raising a fault (R221) and the
control effects that end an instruction (R104, R105). -/

namespace Sys2Proof.Machine

/-- What a step answers. -/
abbrev StepResult := Host.Outcome State Fault Refusal

/-! ### Memory -/

/-- The byte listed for an address, if one is. -/
def Memory.lookup : Memory → Nat → Option Byte
  | [], _ => none
  | (k, v) :: m, a => if k = a then some v else Memory.lookup m a

/-- `MemRead(a, 1)` (R15): the byte last written to `a`, or what reset left there (R32, R58). -/
def Memory.read (c : Config) (m : Memory) (a : Addr) : Byte :=
  (Memory.lookup m a.toNat).getD (c.resetByte a.toNat)

/-- The list without an entry for `a`. -/
def Memory.erase : Memory → Nat → Memory
  | [], _ => []
  | (k, v) :: m, a => if k = a then Memory.erase m a else (k, v) :: Memory.erase m a

/-- The list with `v` listed for `a`, addresses kept rising. -/
def Memory.insert : Memory → Nat → Byte → Memory
  | [], a, v => [(a, v)]
  | (k, u) :: m, a, v =>
    if a < k then (a, v) :: (k, u) :: m
    else if k = a then (a, v) :: m
    else (k, u) :: Memory.insert m a v

/-- `MemWrite(a, 1, v)` (R15), in canonical form: a byte equal to the reset content of its address is not listed. -/
def Memory.write (c : Config) (m : Memory) (a : Addr) (v : Byte) : Memory :=
  if v = c.resetByte a.toNat then Memory.erase m a.toNat else Memory.insert m a.toNat v

/-- The canonical form from an address on: addresses rising from `lo`, inside the address space, none equal to its reset
content. -/
def Memory.wfFrom (c : Config) : Nat → Memory → Bool
  | _, [] => true
  | lo, (k, v) :: m =>
    decide (lo ≤ k) && decide (k < memSize) && v != c.resetByte k && Memory.wfFrom c (k + 1) m

/-- The canonical form of a memory (log 17). -/
def Memory.wf (c : Config) (m : Memory) : Bool := Memory.wfFrom c 0 m

/-- `MemRead(a, 1)` of a state's memory (R15, R57). -/
def State.readByte (s : State) (a : Addr) : Byte := s.mem.read s.cfg a

/-- `MemWrite(a, 1, v)` to a state's memory (R15, R57). -/
def State.writeByte (s : State) (a : Addr) (v : Byte) : State := { s with mem := s.mem.write s.cfg a v }

/-- An address computed on unbounded integers (R13) as an index of `mem`. It is used only after `inRange` or the fetch
bound has shown the sum to be at most 0xFFF, so nothing wraps (R56). -/
def addrOf (a : Nat) : Addr := BitVec.ofNat 12 a

/-- The condition of `CheckRange(a, n)`: no byte of `a .. a+n-1` is above 0xFFF (R15). -/
def inRange (a n : Nat) : Bool := decide (n = 0) || decide (a + n - 1 ≤ 0xFFF)

/-- The `n` bytes at increasing addresses from `a` (R53, R176). -/
def State.readBytes (s : State) (a n : Nat) : List Byte := (List.range n).map fun k => s.readByte (addrOf (a + k))

/-- Stores bytes at increasing addresses from `a` (R53, R174, R176). -/
def State.writeBytes (s : State) (a : Nat) : List Byte → State
  | [] => s
  | b :: bs => State.writeBytes (s.writeByte (addrOf a) b) (a + 1) bs

/-! ### Registers -/

/-- `V[x]` (R14, R21). -/
def State.readReg (s : State) (x : RegIdx) : Byte := s.V[x.toNat]'x.isLt

/-- `V[x] <- v` (R14, R21). -/
def State.writeReg (s : State) (x : RegIdx) (v : Byte) : State := { s with V := s.V.set x.toNat v x.isLt }

/-- `V[from..] <- bytes` in ascending index order (R175), register indices from 0 to 15. -/
def State.writeRegs (s : State) (k : Nat) : List Byte → State
  | [] => s
  | b :: bs => State.writeRegs (s.writeReg (BitVec.ofNat 4 k) b) (k + 1) bs

/-- `I <- v`, masked to 12 bits as every write of `I` is (R24, R36). -/
def State.writeI (s : State) (v : Word) : State := { s with I := v &&& 0x0FFF }

/-! ### Call stack -/

/-- `push(v)`, or `none` at `SP = 16` (R27). -/
def State.push (s : State) (v : Word) : Option State :=
  if h : s.SP.val < 16 then
    some { s with stack := s.stack.set s.SP.val v h, SP := ⟨s.SP.val + 1, by omega⟩ }
  else none

/-- `pop()`, or `none` at `SP = 0`: the popped entry and the state, the entry left in place (R27). -/
def State.pop (s : State) : Option (Word × State) :=
  if h : 0 < s.SP.val then
    some (s.stack[s.SP.val - 1]'(by omega), { s with SP := ⟨s.SP.val - 1, by omega⟩ })
  else none

/-! ### Display -/

/-- `disp[x][y]` (R30). -/
def Display.pixel (d : Display) (x : Fin 64) (y : Fin 32) : Bool := (d[y.val]'y.isLt).getLsbD x.val

/-- `disp[x][y] <- disp[x][y] XOR 1` (R191). -/
def Display.toggle (d : Display) (x : Fin 64) (y : Fin 32) : Display :=
  d.set y.val ((d[y.val]'y.isLt) ^^^ (1#64 <<< x.val)) y.isLt

/-- Every pixel 0 (R190, R260). -/
def Display.clear : Display := Vector.replicate 32 0

/-- A pixel of a state's display (R30). -/
def State.pixel (s : State) (x : Fin 64) (y : Fin 32) : Bool := Display.pixel s.disp x y

/-! ### Keys -/

/-- `key[k]` (R29, R62). -/
def State.readKey (s : State) (k : Fin 16) : Bool := s.key[k.val]'k.isLt

/-- The set of pressed keys, in ascending order (R206). -/
def State.pressedKeys (s : State) : List (Fin 16) := (List.finRange 16).filter fun k => s.readKey k

/-- `draw k in P` (R11, R16): the only key of a one-element set, else the one the free value `pick` names, taken modulo
the number of pressed keys. -/
def chooseKey (pick : Nat) : List (Fin 16) → Option (Fin 16)
  | [] => none
  | [k] => some k
  | k :: l :: ks => some ((k :: l :: ks)[pick % (ks.length + 2)]'(Nat.mod_lt _ (by omega)))

/-! ### Faults -/

/-- `raise Fault(kind, word, at)` (R16, R221): the record and the mode change, unless the machine is already Faulted;
nothing else changes. There is no other entry to a fault and no return from one but `reset` (R223, R225). -/
def State.raise (s : State) (kind : FaultKind) (word : Option Word) (at' : Word) : State :=
  if s.mode = .faulted then s
  else { s with fault := some ⟨kind, word, at'⟩, mode := .faulted }

/-- The fault of the instruction `i` at the current pc: its word and its address are recorded (R220). The word is the one
fetched, since a legal word is the encoding of what it decodes to (log 10). -/
def State.raiseBy (s : State) (kind : FaultKind) (i : Instr) : StepResult :=
  .next (s.raise kind (some (encode i)) s.pc)

/-- `CheckRange(a, n)` before the accesses of the instruction `i` (R15, R56): the fault, or `body`. -/
def State.checkRange (s : State) (a n : Nat) (i : Instr) (body : StepResult) : StepResult :=
  if inRange a n then body else s.raiseBy .outOfBoundsMemoryAccess i

/-! ### Control effects and fetch -/

/-- The control effect that ends an instruction (R104). -/
inductive Effect where
  /-- The default advance. -/
  | next
  /-- A conditional instruction whose condition holds. -/
  | skip
  /-- JP, CALL, RET and JP V0. -/
  | jump (target : Word)
  /-- LD Vx, K. -/
  | wait (x : RegIdx)
  deriving DecidableEq, Repr

/-- The state after a control effect (R105); the mode is Running already in every step that executes an instruction. -/
def State.applyEffect (s : State) : Effect → State
  | .next => { s with pc := s.pc + 2 }
  | .skip => { s with pc := s.pc + 4 }
  | .jump t => { s with pc := t }
  | .wait x => { s with mode := .awaitingKey x }

/-- `end with` a control effect (R104, R105). -/
def State.endWith (s : State) (e : Effect) : StepResult := .next (s.applyEffect e)

/-- `Skip` when the condition holds, `Next` otherwise (R104, R120). -/
def skipIf (c : Bool) : Effect := if c then .skip else .next

/-- Whether a two-byte fetch at `pc` stays inside memory: `pc <= 0xFFE` (R52, R101). -/
def fetchable (pc : Word) : Bool := decide (pc.toNat ≤ 0xFFE)

/-- `fetch(pc)` (R52, R102): the byte at `pc` is the high byte. -/
def State.fetchWord (s : State) : Word :=
  joinBytes (s.readByte (addrOf s.pc.toNat)) (s.readByte (addrOf (s.pc.toNat + 1)))

end Sys2Proof.Machine
end

