-- ==== Sys2Proof/Machine/Operands.lean ====
section
/-! DEFINITION. The operand forms (R74, R176): addresses, offsets, register lists, key indices, glyphs and digits. -/

namespace Sys2Proof.Machine

/-- `zext_16(nnn)`, an address operand as a pc or index value (R13, R74). -/
def addrOperand (nnn : Addr) : Word := nnn.setWidth 16

/-- The target of `JP V0, addr`: `(V[0] + nnn) mod 4096` (R128). -/
def offsetTarget (v0 : Byte) (nnn : Addr) : Word := BitVec.ofNat 16 ((v0.toNat + nnn.toNat) % memSize)

/-- The sum `I + V[x]` of `ADD I, Vx`, on unbounded integers (R171). -/
def indexSum (i : Word) (v : Byte) : Nat := i.toNat + v.toNat

/-- The address of the glyph of digit `v`, all 8 bits of `v` used: `(FONT_BASE + v * 5) mod 4096` (R172). -/
def glyphAddr (c : Config) (v : Byte) : Word := BitVec.ofNat 16 ((c.fontBase.toNat + v.toNat * 5) % memSize)

/-- The decimal digits of a byte: hundreds, tens, ones (R173). -/
def bcdDigits (v : Byte) : List Byte :=
  [BitVec.ofNat 8 (v.toNat / 100), BitVec.ofNat 8 (v.toNat / 10 % 10), BitVec.ofNat 8 (v.toNat % 10)]

/-- How many registers the list `V[0..x]` has (R174, R175). -/
def regCount (x : RegIdx) : Nat := x.toNat + 1

/-- The values of `V[0..x]`, in ascending index order (R174). -/
def State.regList (s : State) (x : RegIdx) : List Byte :=
  (List.range (regCount x)).map fun k => s.readReg (BitVec.ofNat 4 k)

/-- The key a register value names, or `none` above 15 (R204, R205). -/
def keyOperand (v : Byte) : Option (Fin 16) := if h : v.toNat < 16 then some ⟨v.toNat, h⟩ else none

/-- The column of bit `c` of a sprite drawn at `cx`: `(cx + c) mod 64` (R191). -/
def spriteColumn (cx : Byte) (c : Nat) : Fin 64 := ⟨(cx.toNat + c) % 64, Nat.mod_lt _ (by decide)⟩

/-- The display row of row `r` of a sprite drawn at `cy`: `(cy + r) mod 32` (R191). -/
def spriteRow (cy : Byte) (r : Nat) : Fin 32 := ⟨(cy.toNat + r) % 32, Nat.mod_lt _ (by decide)⟩

/-- Bit `c` of a sprite row, counted from the left: bit 7 is column 0 (R192). -/
def spriteBit (b : Byte) (c : Nat) : Bool := b.getLsbD (7 - c)

end Sys2Proof.Machine
end

