-- ==== Sys2Proof/Machine/Flags.lean ====
section
/-! DEFINITION. The values VF takes as a flag (R22) and the order in which it is written (R141). -/

namespace Sys2Proof.Machine

/-- A flag as the value of VF: 1 or 0. -/
def flagByte (f : Bool) : Byte := if f then 1 else 0

/-- ADD: the 8-bit sum overflows (R148). -/
def carryOut (a b : Byte) : Bool := decide (a.toNat + b.toNat > 255)

/-- SUB and SUBN: no borrow occurs in `a - b` (R149, R151). -/
def noBorrow (a b : Byte) : Bool := decide (b.toNat ≤ a.toNat)

/-- SHR: the bit shifted out on the right (R150). -/
def lowBitOut (a : Byte) : Bool := a.getLsbD 0

/-- SHL: the bit shifted out on the left (R152). -/
def highBitOut (a : Byte) : Bool := a.getLsbD 7

/-- ADD I under `QUIRK_ADD_I_VF`: the sum passes 0xFFF (R171). -/
def indexOverflow (i : Word) (v : Byte) : Bool := decide (indexSum i v > 0xFFF)

/-- `V[x] <- result`, and after it `V[F] <- flag`, so the flag stays when `x = F` (R141). -/
def State.writeResultFlag (s : State) (x : RegIdx) (result : Byte) (f : Bool) : State :=
  (s.writeReg x result).writeReg VF (flagByte f)

end Sys2Proof.Machine
end

