-- ==== Sys2Proof/Machine/Alu.lean ====
section
/-! DEFINITION. Register loads, arithmetic, logic and the random byte (42_alu.md). Byte arithmetic is modulo 256 (R140). -/

namespace Sys2Proof.Machine

/-- `LD Vx, byte` (R142). -/
def execLdByte (x : RegIdx) (kk : Byte) (s : State) : StepResult := (s.writeReg x kk).endWith .next

/-- `ADD Vx, byte` (R143): no carry is recorded. -/
def execAddByte (x : RegIdx) (kk : Byte) (s : State) : StepResult :=
  (s.writeReg x (s.readReg x + kk)).endWith .next

/-- `LD Vx, Vy` (R144). -/
def execLdReg (x y : RegIdx) (s : State) : StepResult := (s.writeReg x (s.readReg y)).endWith .next

/-- `OR Vx, Vy` (R145). -/
def execOrReg (x y : RegIdx) (s : State) : StepResult :=
  (s.writeReg x (s.readReg x ||| s.readReg y)).endWith .next

/-- `AND Vx, Vy` (R146). -/
def execAndReg (x y : RegIdx) (s : State) : StepResult :=
  (s.writeReg x (s.readReg x &&& s.readReg y)).endWith .next

/-- `XOR Vx, Vy` (R147). -/
def execXorReg (x y : RegIdx) (s : State) : StepResult :=
  (s.writeReg x (s.readReg x ^^^ s.readReg y)).endWith .next

/-- `ADD Vx, Vy` (R148). -/
def execAddReg (x y : RegIdx) (s : State) : StepResult :=
  let a := s.readReg x
  let b := s.readReg y
  (s.writeResultFlag x (a + b) (carryOut a b)).endWith .next

/-- `SUB Vx, Vy` (R149). -/
def execSubReg (x y : RegIdx) (s : State) : StepResult :=
  let a := s.readReg x
  let b := s.readReg y
  (s.writeResultFlag x (a - b) (noBorrow a b)).endWith .next

/-- `SHR Vx` (R150): `y` is ignored. -/
def execShr (x _y : RegIdx) (s : State) : StepResult :=
  let a := s.readReg x
  (s.writeResultFlag x (a >>> 1) (lowBitOut a)).endWith .next

/-- `SUBN Vx, Vy` (R151). -/
def execSubn (x y : RegIdx) (s : State) : StepResult :=
  let a := s.readReg x
  let b := s.readReg y
  (s.writeResultFlag x (b - a) (noBorrow b a)).endWith .next

/-- `SHL Vx` (R152): `y` is ignored. -/
def execShl (x _y : RegIdx) (s : State) : StepResult :=
  let a := s.readReg x
  (s.writeResultFlag x (a <<< 1) (highBitOut a)).endWith .next

/-- `RND Vx, byte` with the drawn byte `r` given (R153); one more draw has been made. -/
def rndWith (r : Byte) (x : RegIdx) (kk : Byte) (s : State) : StepResult :=
  State.endWith { s.writeReg x (r &&& kk) with draws := s.draws + 1 } .next

/-- `RND Vx, byte` (R153): a free byte, drawn afresh (R10). -/
def execRnd (x : RegIdx) (kk : Byte) (s : State) : StepResult := rndWith (Config.drawByte s.draws) x kk s

end Sys2Proof.Machine
end

