-- ==== Sys2Proof/Machine/ControlFlow.lean ====
section
/-! DEFINITION. Control transfer and conditional skips (41_control_flow.md). -/

namespace Sys2Proof.Machine

/-- `RET` (R121): the popped entry is the address of the CALL, so the target is 2 above it. -/
def execRet (s : State) : StepResult :=
  match s.pop with
  | none => s.raiseBy .stackUnderflow .ret
  | some (v, t) => t.endWith (.jump (v + 2))

/-- `CALL addr` (R122): pushes the address of the CALL itself. -/
def execCall (nnn : Addr) (s : State) : StepResult :=
  match s.push s.pc with
  | none => s.raiseBy .stackOverflow (.call nnn)
  | some t => t.endWith (.jump (addrOperand nnn))

/-- `JP addr` (R123). -/
def execJp (nnn : Addr) (s : State) : StepResult := s.endWith (.jump (addrOperand nnn))

/-- `SE Vx, byte` (R124). -/
def execSeByte (x : RegIdx) (kk : Byte) (s : State) : StepResult := s.endWith (skipIf (s.readReg x == kk))

/-- `SNE Vx, byte` (R125). -/
def execSneByte (x : RegIdx) (kk : Byte) (s : State) : StepResult := s.endWith (skipIf (s.readReg x != kk))

/-- `SE Vx, Vy` (R126). -/
def execSeReg (x y : RegIdx) (s : State) : StepResult := s.endWith (skipIf (s.readReg x == s.readReg y))

/-- `SNE Vx, Vy` (R127). -/
def execSneReg (x y : RegIdx) (s : State) : StepResult := s.endWith (skipIf (s.readReg x != s.readReg y))

/-- `JP V0, addr` (R128): the offset register is always V0. -/
def execJpV0 (nnn : Addr) (s : State) : StepResult := s.endWith (.jump (offsetTarget (s.readReg 0) nnn))

end Sys2Proof.Machine
end

