-- ==== Sys2Proof/Machine/Display.lean ====
section
/-! DEFINITION. The display primitives (44_display.md). -/

namespace Sys2Proof.Machine

/-- `CLS` (R190): `redraw` is set even when the display was clear. -/
def execCls (s : State) : StepResult := State.endWith { s with disp := Display.clear, redraw := true } .next

/-- One step of R191's inner loop: if the sprite bit is 1, note a collision with a set pixel, then toggle the pixel. -/
def drawBit (bit : Bool) (x : Fin 64) (y : Fin 32) (acc : Display × Bool) : Display × Bool :=
  if bit then (Display.toggle acc.1 x y, acc.2 || Display.pixel acc.1 x y) else acc

/-- R191's inner loop: the 8 columns of one sprite row. -/
def drawRow (cx : Byte) (y : Fin 32) (b : Byte) (acc : Display × Bool) : Display × Bool :=
  (List.range 8).foldl (fun acc c => drawBit (spriteBit b c) (spriteColumn cx c) y acc) acc

/-- R191's outer loop: sprite rows `r, r+1, ..` in order. -/
def drawRows (cx cy : Byte) : Nat → List Byte → Display × Bool → Display × Bool
  | _, [], acc => acc
  | r, b :: bs, acc => drawRows cx cy (r + 1) bs (drawRow cx (spriteRow cy r) b acc)

/-- `DRW Vx, Vy, nibble` (R191): coordinates and sprite are read before any write; VF is written after the drawing. With
`n = 0` nothing is read or drawn, VF becomes 0 and `redraw` true. -/
def execDrw (x y : RegIdx) (n : Nibble) (s : State) : StepResult :=
  s.checkRange s.I.toNat n.toNat (.drw x y n)
    (let drawn := drawRows (s.readReg x) (s.readReg y) 0 (s.readBytes s.I.toNat n.toNat) (s.disp, false)
     State.endWith { s.writeReg VF (flagByte drawn.2) with disp := drawn.1, redraw := true } .next)

end Sys2Proof.Machine
end

