-- ==== Sys2Proof/Machine/MemoryIndex.lean ====
section
/-! DEFINITION. The index register and the memory transfers through it (43_memory_index.md). `I` is written by the first
three instructions only (R24); the last three leave it unchanged (R176). -/

namespace Sys2Proof.Machine

/-- `LD I, addr` (R170). -/
def execLdI (nnn : Addr) (s : State) : StepResult := (s.writeI (addrOperand nnn)).endWith .next

/-- `ADD I, Vx` (R171): VF is written only under `QUIRK_ADD_I_VF` (R12), after `I`, from the operands read before. -/
def execAddI (x : RegIdx) (s : State) : StepResult :=
  let v := s.readReg x
  let t := s.writeI (BitVec.ofNat 16 (indexSum s.I v % memSize))
  let u := if s.cfg.quirkAddIVf then t.writeReg VF (flagByte (indexOverflow s.I v)) else t
  u.endWith .next

/-- `LD F, Vx` (R172). -/
def execLdF (x : RegIdx) (s : State) : StepResult := (s.writeI (glyphAddr s.cfg (s.readReg x))).endWith .next

/-- `LD B, Vx` (R173). -/
def execLdB (x : RegIdx) (s : State) : StepResult :=
  s.checkRange s.I.toNat 3 (.ldB x)
    ((s.writeBytes s.I.toNat (bcdDigits (s.readReg x))).endWith .next)

/-- `LD [I], Vx` (R174). -/
def execStoreRegs (x : RegIdx) (s : State) : StepResult :=
  s.checkRange s.I.toNat (regCount x) (.storeRegs x)
    ((s.writeBytes s.I.toNat (s.regList x)).endWith .next)

/-- `LD Vx, [I]` (R175). -/
def execLoadRegs (x : RegIdx) (s : State) : StepResult :=
  s.checkRange s.I.toNat (regCount x) (.loadRegs x)
    ((s.writeRegs 0 (s.readBytes s.I.toNat (regCount x))).endWith .next)

end Sys2Proof.Machine
end

