-- ==== Sys2Proof/Machine/TimersKeys.lean ====
section
/-! DEFINITION. Timer transfers, key skips and the key wait (45_timers_keys.md). -/

namespace Sys2Proof.Machine

/-- `LD Vx, DT` (R201). -/
def execLdVxDt (x : RegIdx) (s : State) : StepResult := (s.writeReg x s.DT).endWith .next

/-- `LD DT, Vx` (R202). -/
def execLdDtVx (x : RegIdx) (s : State) : StepResult := State.endWith { s with DT := s.readReg x } .next

/-- `LD ST, Vx` (R203). -/
def execLdStVx (x : RegIdx) (s : State) : StepResult := State.endWith { s with ST := s.readReg x } .next

/-- `SKP Vx` (R204). -/
def execSkp (x : RegIdx) (s : State) : StepResult :=
  match keyOperand (s.readReg x) with
  | none => s.raiseBy .keyIndexOutOfRange (.skp x)
  | some k => s.endWith (skipIf (s.readKey k))

/-- `SKNP Vx` (R205). -/
def execSknp (x : RegIdx) (s : State) : StepResult :=
  match keyOperand (s.readReg x) with
  | none => s.raiseBy .keyIndexOutOfRange (.sknp x)
  | some k => s.endWith (skipIf (!s.readKey k))

/-- `LD Vx, K`, the step that fetches it (R206): the wait begins, and no key is sampled. -/
def execLdVxK (x : RegIdx) (s : State) : StepResult := s.endWith (.wait x)

/-- The completion of a key wait with key `k` (R206): its index goes to `V[x]`, the engine resumes after the instruction. -/
def State.completeWait (s : State) (x : RegIdx) (k : Fin 16) : State :=
  { s.writeReg x (BitVec.ofNat 8 k.val) with pc := s.pc + 2, mode := .running, draws := s.draws + 1 }

/-- `key_wait(x)` with the free value `pick` given (R206): with no key pressed nothing changes. -/
def keyWaitWith (pick : Nat) (x : RegIdx) (s : State) : StepResult :=
  match chooseKey pick s.pressedKeys with
  | none => .next s
  | some k => .next (s.completeWait x k)

/-- `key_wait(x)` (R106, R206): a key of the pressed ones, by a free draw (R11). -/
def keyWait (x : RegIdx) (s : State) : StepResult := keyWaitWith (Config.drawKey s.draws) x s

end Sys2Proof.Machine
end

