-- ==== Sys2Proof/Machine/Step.lean ====
section
/-! DEFINITION. One `step()` (R100 to R108), and the placing of an instruction where it is fetched next. -/

namespace Sys2Proof.Machine

/-- One `step()` (R107): nothing in Faulted (R100), the key wait in AwaitingKey (R106), else the fetch bound (R101), the
fetch (R102), the illegal word (R103) and the instruction (R104), in that order (R227). -/
def step (s : State) : Host.Outcome State Fault Refusal :=
  match s.mode with
  | .faulted => .next s
  | .awaitingKey x => keyWait x s
  | .running =>
    if fetchable s.pc then
      match decode s.fetchWord with
      | .instr i => exec i s
      | .unknown w => .next (s.raise .unknownOpcode (some w) s.pc)
    else .next (s.raise .outOfBoundsMemoryAccess none s.pc)

/-- Where the next instruction is placed: at `pc`, or at 0x200 when nothing can be fetched at `pc` (R101, log 9). -/
def fetchPlace (s : State) : Word := if fetchable s.pc then s.pc else 0x200

/-- `s` with a table word stored where the next `step` fetches it, high byte first (R52), and with what that fetch needs:
mode Running with no fault recorded, and a `pc` at which a word can be fetched (log 9). -/
def State.withFetchWord (s : State) (nbits w : Nat) : State :=
  let p := fetchPlace s
  { s.writeBytes p.toNat [highByte (tableWord nbits w), lowByte (tableWord nbits w)] with
    pc := p, mode := .running, fault := none }

end Sys2Proof.Machine
end

