-- ==== Sys2Proof/Machine/HostInterface.lean ====
section
/-! DEFINITION. The host's transactions (R234 to R243, R260, R262), each atomic, and the output ports of R242. -/

namespace Sys2Proof.Machine

/-! ### The transactions -/

/-- One timer's decrement, floored at 0 (R235). -/
def timerTick (t : Byte) : Byte := if t = 0 then 0 else t - 1

/-- `tick_timers()` (R235): both timers, in every mode; nothing else. -/
def State.tickTimers (s : State) : State := { s with DT := timerTick s.DT, ST := timerTick s.ST }

/-- `set_key(k, p)` (R238); the index is 0..15 by its type (B10). -/
def State.setKey (s : State) (k : Fin 16) (pressed : Bool) : State :=
  { s with key := s.key.set k.val pressed k.isLt }

/-- `ack_redraw()` (R240). -/
def State.ackRedraw (s : State) : State := { s with redraw := false }

/-- `load(image)` (R262): the bytes from 0x200 upward, or the fault `InvalidImageSize` and no byte. -/
def State.load (s : State) (image : List Byte) : State :=
  if imageWf image then s.writeBytes programStart image
  else s.raise .invalidImageSize none s.pc

/-- `reset()` (R260): every state item at its reset value, the key latch unchanged (R29). The model's own fields, which
are not state of the spec (R20), are unchanged too. -/
def State.resetNow (s : State) : State :=
  { State.reset with key := s.key, cfg := s.cfg, draws := s.draws }

/-- The transactions of R234. -/
inductive Transaction where
  /-- `step()` (R107). -/
  | step
  /-- `tick_timers()` (R235). -/
  | tickTimers
  /-- `set_key(k, p)` (R238). -/
  | setKey (k : Fin 16) (pressed : Bool)
  /-- `get_key(k)` (R237). -/
  | getKey (k : Fin 16)
  /-- `read_display()` (R239). -/
  | readDisplay
  /-- `ack_redraw()` (R240). -/
  | ackRedraw
  /-- `read_status()` (R241). -/
  | readStatus
  /-- `load(image)` (R262). -/
  | load (image : List Byte)
  /-- `reset()` (R260). -/
  | reset
  deriving DecidableEq, Repr

/-- The state after a transaction (R234). -/
def transact (τ : Transaction) (s : State) : StepResult :=
  match τ with
  | .step => step s
  | .tickTimers => .next s.tickTimers
  | .setKey k p => .next (s.setKey k p)
  | .getKey _ => .next s
  | .readDisplay => .next s
  | .ackRedraw => .next s.ackRedraw
  | .readStatus => .next s
  | .load image => .next (s.load image)
  | .reset => .next s.resetNow

/-- A run: transactions in one total order, each seeing all before it (R61). Any list is a run (R243, R271). -/
def runTransactions : List Transaction → State → StepResult
  | [], s => .next s
  | τ :: τs, s =>
    match transact τ s with
    | .next t => runTransactions τs t
    | .fault r => .fault r
    | .refused r => .refused r

/-! ### Boot and the end of a run -/

/-- Boot (R270): `reset()`, then `load(image)`; `step()` calls follow. -/
def State.boot (s : State) (image : List Byte) : State := s.resetNow.load image

/-- R274's condition on one state: Running, `pc <= 0xFFE`, and the word at `pc` is a jump to itself, `0x1000 OR pc`. The
end of a run is the first such state of the run, `endOfRun`. -/
def State.atEnd (s : State) : Bool :=
  decide (s.mode = .running) && fetchable s.pc && decide (s.fetchWord = (0x1000 ||| s.pc))

/-- The first state that meets R274's condition, of the states from `s` on along the transactions. -/
def firstEnd : List Transaction → State → Option State
  | [], s => if s.atEnd then some s else none
  | τ :: τs, s =>
    if s.atEnd then some s
    else
      match transact τ s with
      | .next t => firstEnd τs t
      | .fault _ => none
      | .refused _ => none

/-- The end of the run of a program (R274), if these transactions reach it: the first state that meets the condition,
from boot (R270) until the next reset, which ends the run (log 21). -/
def State.endOfRun (s : State) (image : List Byte) (τs : List Transaction) : Option State :=
  firstEnd (τs.takeWhile fun τ => decide (τ ≠ .reset)) (s.boot image)

/-- Whether the run of a program ends, and successfully: no fault is recorded at its end (R274). -/
def State.runSucceeds (s : State) (image : List Byte) (τs : List Transaction) : Bool :=
  match s.endOfRun image τs with
  | some t => decide (t.fault = none)
  | none => false

/-! ### What a transaction returns -/

/-- `tone = (ST > 0)` (R236). -/
def State.tone (s : State) : Bool := decide (0 < s.ST.toNat)

/-- What `read_status()` returns (R241). -/
structure Status where
  redraw : Bool
  tone : Bool
  DT : Byte
  ST : Byte
  mode : Mode
  fault : Option FaultRecord
  deriving DecidableEq, Repr

/-- `read_status()` (R110, R241). -/
def State.status (s : State) : Status :=
  { redraw := s.redraw, tone := s.tone, DT := s.DT, ST := s.ST, mode := s.mode, fault := s.fault }

/-- The `returns` column of R234. -/
inductive Response where
  /-- Nothing is returned. -/
  | nothing
  /-- `get_key`: the latch bit. -/
  | key (pressed : Bool)
  /-- `read_display`: a copy of `disp`. -/
  | display (d : Display)
  /-- `read_status`: the status. -/
  | status (st : Status)
  /-- `load`: ok. -/
  | loadOk
  /-- `load`: InvalidImageSize. -/
  | loadInvalidImageSize
  deriving DecidableEq, Repr

/-- What a transaction returns in the state in which it is made (R234). -/
def respond (τ : Transaction) (s : State) : Response :=
  match τ with
  | .step => .nothing
  | .tickTimers => .nothing
  | .setKey _ _ => .nothing
  | .getKey k => .key (s.readKey k)
  | .readDisplay => .display s.disp
  | .ackRedraw => .nothing
  | .readStatus => .status s.status
  | .load image => if imageWf image then .loadOk else .loadInvalidImageSize
  | .reset => .nothing

/-! ### Output ports (R242) -/

/-- The numeric code of a fault kind (R220). -/
def FaultKind.code : FaultKind → BitVec 3
  | .stackOverflow => 1
  | .stackUnderflow => 2
  | .outOfBoundsMemoryAccess => 3
  | .unknownOpcode => 4
  | .invalidImageSize => 5
  | .keyIndexOutOfRange => 6

/-- `fault_code`: 0 is no fault (R220, R242). -/
def State.faultCode (s : State) : BitVec 3 :=
  match s.fault with
  | none => 0
  | some r => r.kind.code

/-- `fault_word_valid` (R242). -/
def State.faultWordValid (s : State) : Bool := (s.fault.bind fun r => r.word).isSome

/-- `fault_word`: 0 when no word is recorded (R242). -/
def State.faultWord (s : State) : Word := (s.fault.bind fun r => r.word).getD 0

/-- `fault_pc`: the recorded pc; a free value when no fault is recorded (R242 gives no value there). DESIGN CHOICE: that
free value depends on the count of draws alone, so two states with no fault and the same count show the same one, which
two moments of the hardware need not (log 16). Unsafe for a claim that compares them. -/
def State.faultPc (s : State) : Word :=
  match s.fault with
  | none => Config.idleFaultPc s.draws
  | some r => r.pc

/-- `mode_out`: 0 Running, 1 AwaitingKey, 2 Faulted (R242). -/
def State.modeOut (s : State) : BitVec 2 :=
  match s.mode with
  | .running => 0
  | .awaitingKey _ => 1
  | .faulted => 2

/-- `disp_out`: bit `y*64 + x` is `disp[x][y]` (R242). -/
def State.dispOut (s : State) : BitVec 2048 :=
  (List.finRange 32).foldl
    (fun acc y =>
      let row : BitVec 2048 := (s.disp[y.val]'y.isLt).setWidth 2048
      acc ||| row <<< (64 * y.val))
    0

/-- `key_in[15:0]`, the sixteen `set_key` values at once: bit `k` is `key[k]` (R242). -/
def State.setKeys (s : State) (keyIn : BitVec 16) : State :=
  (List.finRange 16).foldl (fun t k => t.setKey k (keyIn.getLsbD k.val)) s

end Sys2Proof.Machine
end

