-- ==== Sys2Proof/Safety.lean ====
section
/-! DEFINITION. The terms claims use: the state invariant (R38), the end of a run (R274), and frames. -/

namespace Sys2Proof.Machine

/-- The well-formedness of states (R38), with what it takes to be kept: the bounds of `pc` (R25), the memory's canonical
form, the parameters' conditions (R8), and that a recorded fault names the current `pc` (R221). `SP` is 0..16 and the
bytes are 0..255 by their types. -/
structure Inv (s : State) : Prop where
  /-- `I <= 0xFFF` (R24). -/
  index : s.I.toNat ≤ 0xFFF
  /-- `pc` holds a value in 0 to 0x1002 (R25). -/
  pcBound : s.pc.toNat ≤ 0x1002
  /-- A waiting `LD Vx, K` was fetched, so its address can be (R101, R206). -/
  waitPc : ∀ x, s.mode = .awaitingKey x → s.pc.toNat ≤ 0xFFE
  /-- `stack[k] <= 0xFFE` for `k < SP` (R27). -/
  stackBound : ∀ k : Fin 16, k.val < s.SP.val → (s.stack[k.val]'k.isLt).toNat ≤ 0xFFE
  /-- `(mode = Faulted) = (fault ≠ none)` (R35). -/
  faultedIff : s.mode = .faulted ↔ s.fault ≠ none
  /-- The recorded pc is the current one (R221). -/
  faultPc : ∀ r, s.fault = some r → r.pc = s.pc
  /-- The memory is in canonical form. -/
  memWf : s.mem.wf s.cfg = true
  /-- The parameters meet their conditions (R8). -/
  cfgWf : s.cfg.wf = true

/-- A state in which no fault is recorded and the engine is not halted. -/
def State.safe (s : State) : Prop := s.mode ≠ .faulted ∧ s.fault = none

/-- R274's condition on one state in the rule's own terms: Running, `pc <= 0xFFE`, and the two bytes at `pc`, the one at
`pc` high, are the word `0x1000 OR pc`. -/
def State.JumpsToItself (s : State) : Prop :=
  s.mode = .running ∧ s.pc.toNat ≤ 0xFFE ∧
    (s.readByte (BitVec.ofNat 12 s.pc.toNat) ++ s.readByte (BitVec.ofNat 12 (s.pc.toNat + 1)) : BitVec 16) =
      (0x1000 ||| s.pc)

/-- `t` is the end of the run of a program (R274) along transactions that hold no reset: the state after boot (R270) and
the first `n` of them meets the condition, and none before it does. -/
def FirstEndOfRun (s : State) (image : List Byte) (τs : List Transaction) (t : State) : Prop :=
  ∃ n, n ≤ τs.length ∧ runTransactions (.reset :: .load image :: τs.take n) s = .next t ∧ t.JumpsToItself ∧
    ∀ m, m < n → ∀ u, runTransactions (.reset :: .load image :: τs.take m) s = .next u → ¬u.JumpsToItself

/-- A state at a successful end (R274): no fault is recorded. -/
def State.successfulEnd (s : State) : Prop := s.atEnd = true ∧ s.fault = none

/-- Every register outside `written` reads as before. -/
def RegsKept (s t : State) (written : List RegIdx) : Prop :=
  ∀ r, r ∉ written → t.readReg r = s.readReg r

/-- Every byte of memory outside the `n` bytes from address `a` reads as before; `n = 0` is all of memory. -/
def BytesKept (s t : State) (a n : Nat) : Prop :=
  ∀ b : Addr, b.toNat < a ∨ a + n ≤ b.toNat → t.readByte b = s.readByte b

/-- Every pixel is as before. -/
def PixelsKept (s t : State) : Prop := ∀ x y, t.pixel x y = s.pixel x y

/-- Nothing but the registers of `written` and `pc` may differ: every other register, every byte of memory and every
other field is as before. -/
def OnlyRegsAndPc (s t : State) (written : List RegIdx) : Prop :=
  RegsKept s t written ∧ BytesKept s t 0 0 ∧ { t with V := s.V, pc := s.pc } = s

/-- Nothing but `pc` differs. -/
def OnlyPc (s t : State) : Prop := { t with pc := s.pc } = s

/-- `t` is `s` faulted with this record: the mode and the record changed and nothing else did (R221). -/
def FaultedWith (s t : State) (kind : FaultKind) (word : Option Word) : Prop :=
  t = { s with mode := .faulted, fault := some ⟨kind, word, s.pc⟩ }

/-- Nothing but the `n` bytes of memory from `a`, and `pc`, may differ. -/
def OnlyBytesAndPc (s t : State) (a n : Nat) : Prop :=
  BytesKept s t a n ∧ RegsKept s t [] ∧ { t with mem := s.mem, pc := s.pc } = s

/-- Nothing but the registers of `written`, `I` and `pc` may differ. -/
def OnlyIndexRegsAndPc (s t : State) (written : List RegIdx) : Prop :=
  RegsKept s t written ∧ BytesKept s t 0 0 ∧ { t with V := s.V, I := s.I, pc := s.pc } = s

/-- Nothing but the display, `redraw`, the registers of `written` and `pc` may differ. -/
def OnlyDisplayRegsAndPc (s t : State) (written : List RegIdx) : Prop :=
  RegsKept s t written ∧ BytesKept s t 0 0 ∧
    { t with V := s.V, disp := s.disp, redraw := s.redraw, pc := s.pc } = s

/-- A pixel is toggled by a sprite of rows `bytes` drawn at `cx`, `cy`: some set bit of it lands there (R191, R192). -/
def SpriteCovers (bytes : List Byte) (cx cy : Byte) (px : Fin 64) (py : Fin 32) : Prop :=
  ∃ r c : Nat, ∃ b : Byte, bytes[r]? = some b ∧ c < 8 ∧ b.getLsbD (7 - c) = true ∧
    px.val = (cx.toNat + c) % 64 ∧ py.val = (cy.toNat + r) % 32

/-- A pixel is toggled by `DRW Vx, Vy, n` in the state `s`: some set bit of the `n` sprite bytes at `I` lands on it, bit 7
being the leftmost column and coordinates wrapping (R191, R192). -/
def State.drwCovers (s : State) (x y : RegIdx) (n : Nibble) (px : Fin 64) (py : Fin 32) : Prop :=
  ∃ r c : Nat, r < n.toNat ∧ c < 8 ∧ (s.readByte (addrOf (s.I.toNat + r))).getLsbD (7 - c) = true ∧
    px.val = ((s.readReg x).toNat + c) % 64 ∧ py.val = ((s.readReg y).toNat + r) % 32

/-- The fault an instruction raises in a state, if any (R220, R227): each instruction has at most one check of its own. -/
def faultOf (i : Instr) (s : State) : Option FaultKind :=
  match i with
  | .ret => if s.SP.val = 0 then some .stackUnderflow else none
  | .call _ => if s.SP.val = 16 then some .stackOverflow else none
  | .drw _ _ n => if n.toNat ≥ 1 ∧ s.I.toNat + n.toNat - 1 > 0xFFF then some .outOfBoundsMemoryAccess else none
  | .ldB _ => if s.I.toNat + 2 > 0xFFF then some .outOfBoundsMemoryAccess else none
  | .storeRegs x => if s.I.toNat + x.toNat > 0xFFF then some .outOfBoundsMemoryAccess else none
  | .loadRegs x => if s.I.toNat + x.toNat > 0xFFF then some .outOfBoundsMemoryAccess else none
  | .skp x => if (s.readReg x).toNat > 15 then some .keyIndexOutOfRange else none
  | .sknp x => if (s.readReg x).toNat > 15 then some .keyIndexOutOfRange else none
  | _ => none

/-- The instructions that end with a jump (R104). -/
def isJump : Instr → Bool
  | .jp _ => true
  | .call _ => true
  | .ret => true
  | .jpV0 _ => true
  | _ => false

/-- The conditional instructions (R104). -/
def isSkip : Instr → Bool
  | .seByte _ _ => true
  | .sneByte _ _ => true
  | .seReg _ _ => true
  | .sneReg _ _ => true
  | .skp _ => true
  | .sknp _ => true
  | _ => false

/-- The instructions that write VF as a flag (R22), ADD I under the quirk only. -/
def writesFlag (c : Config) : Instr → Bool
  | .addReg _ _ => true
  | .subReg _ _ => true
  | .shr _ _ => true
  | .subn _ _ => true
  | .shl _ _ => true
  | .drw _ _ _ => true
  | .addI _ => c.quirkAddIVf
  | _ => false

/-- The register an instruction names as its destination, `x`, if it has one (R22). -/
def destination : Instr → Option RegIdx
  | .ldByte x _ => some x
  | .addByte x _ => some x
  | .ldReg x _ => some x
  | .orReg x _ => some x
  | .andReg x _ => some x
  | .xorReg x _ => some x
  | .addReg x _ => some x
  | .subReg x _ => some x
  | .shr x _ => some x
  | .subn x _ => some x
  | .shl x _ => some x
  | .rnd x _ => some x
  | .ldVxDt x => some x
  | .ldVxK x => some x
  | .loadRegs x => some x
  | _ => none

end Sys2Proof.Machine
end

