-- ==== Sys2Proof/Certificates/Slice0/Obligations.lean ====
section
/-! DEFINITION. The statements for the provers, from the numbered rules of spec/. -/

open Sys2Proof Sys2Proof.Machine

/-! ### Encoding -/

/-- Words written out from R72's patterns and R92's image, one at least for each top nibble, decode to the instructions
they stand for. -/
def Obligations.WrittenWordsDecode : Prop :=
  decode 0x00E0 = .instr .cls ∧ decode 0x00EE = .instr .ret ∧ decode 0x1ABC = .instr (.jp 0xABC) ∧
  decode 0x2301 = .instr (.call 0x301) ∧ decode 0x3A05 = .instr (.seByte 0xA 0x05) ∧
  decode 0x4180 = .instr (.sneByte 1 0x80) ∧ decode 0x5230 = .instr (.seReg 2 3) ∧
  decode 0x6005 = .instr (.ldByte 0 0x05) ∧
  decode 0x7003 = .instr (.addByte 0 0x03) ∧ decode 0x8F14 = .instr (.addReg 0xF 1) ∧
  decode 0x9230 = .instr (.sneReg 2 3) ∧ decode 0xA300 = .instr (.ldI 0x300) ∧ decode 0xBFFF = .instr (.jpV0 0xFFF) ∧
  decode 0xC10F = .instr (.rnd 1 0x0F) ∧ decode 0xD125 = .instr (.drw 1 2 5) ∧ decode 0xE59E = .instr (.skp 5) ∧
  decode 0xF265 = .instr (.loadRegs 2) ∧ decode 0x0000 = .unknown 0x0000

/-- Every instruction's word decodes to that instruction, with every operand at every value (R72, R73, R75). -/
def Obligations.DecodeOfEncodeIsTheInstruction : Prop := ∀ i : Instr, decode (encode i) = .instr i

/-- Every word that decodes to an instruction is that instruction's word: each legal word has one meaning and no bit of it
is lost (R75, R83). -/
def Obligations.EncodeOfDecodeIsTheWord : Prop := ∀ (w : Word) (i : Instr), decode w = .instr i → encode i = w

/-- Which words are Unknown, family by family (R76 to R81, R83); every other word is an instruction, and an Unknown answer
carries the word itself. -/
def Obligations.UnknownWordsAreExactlyTheIllegalSet : Prop :=
  ∀ w : Word,
    ((∃ i, decode w = .instr i) ∨ decode w = .unknown w) ∧
    (decode w = .unknown w ↔
      (opField w = 0x0 ∧ w ≠ 0x00E0 ∧ w ≠ 0x00EE) ∨
      ((opField w = 0x5 ∨ opField w = 0x9) ∧ nField w ≠ 0) ∨
      (opField w = 0x8 ∧ nField w ∈ [0x8, 0x9, 0xA, 0xB, 0xC, 0xD, 0xF]) ∨
      (opField w = 0xE ∧ kkField w ∉ [0x9E, 0xA1]) ∨
      (opField w = 0xF ∧ kkField w ∉ [0x07, 0x0A, 0x15, 0x18, 0x1E, 0x29, 0x33, 0x55, 0x65]))

/-- The decoder and the match and mask pairs of the opcode table agree: a word decodes exactly when it is of a row, it
decodes to an instruction of that row, and it is of at most one row (R75). -/
def Obligations.DecoderAgreesWithTheOpcodeTable : Prop :=
  ∀ w : Word,
    (wordWf w = true ↔ ∃ i, decode w = .instr i) ∧
    (∀ i, decode w = .instr i → ∀ r ∈ opcodeTable, r.fits w = true → r = i.row) ∧
    (opcodeTable.filter fun r => r.fits w).length ≤ 1

/-! ### The step -/

/-- A step in Running with `pc <= 0xFFE` runs the instruction that the two bytes at `pc` decode to, the byte at `pc` being
the high byte (R52, R102). -/
def Obligations.StepRunsTheDecodedInstruction : Prop :=
  ∀ (s : State) (i : Instr), s.mode = .running → s.pc.toNat ≤ 0xFFE →
    decode (s.readByte (BitVec.ofNat 12 s.pc.toNat) ++ s.readByte (BitVec.ofNat 12 (s.pc.toNat + 1)) : BitVec 16) =
      .instr i →
    step s = exec i s

/-- An illegal word raises UnknownOpcode with the raw word and the current pc, and changes nothing else (R103). -/
def Obligations.IllegalWordRaisesUnknownOpcode : Prop :=
  ∀ (s : State) (w : Word), s.mode = .running → s.pc.toNat ≤ 0xFFE →
    (s.readByte (BitVec.ofNat 12 s.pc.toNat) ++ s.readByte (BitVec.ofNat 12 (s.pc.toNat + 1)) : BitVec 16) = w →
    decode w = .unknown w →
    ∃ t, step s = .next t ∧ FaultedWith s t .unknownOpcode (some w)

/-- A fetch with `pc > 0xFFE` raises OutOfBoundsMemoryAccess with no word, and changes nothing else (R101). -/
def Obligations.FetchAboveMemoryFaults : Prop :=
  ∀ s : State, s.mode = .running → s.pc.toNat > 0xFFE →
    ∃ t, step s = .next t ∧ FaultedWith s t .outOfBoundsMemoryAccess none

/-- A step in Faulted changes no state and reports the stored record; every transaction but reset keeps the mode and the
record, an oversized load included; reset ends it (R100, R226). -/
def Obligations.FaultedIsLeftOnlyByReset : Prop :=
  ∀ s : State, s.mode = .faulted →
    step s = .next s ∧ s.status.fault = s.fault ∧
    (∀ τ t, τ ≠ .reset → transact τ s = .next t → t.mode = .faulted ∧ t.fault = s.fault) ∧
    ∃ t, transact .reset s = .next t ∧ t.mode = .running ∧ t.fault = none

/-- Faults are precise: a step from Running that ends Faulted changed nothing but the mode and the record, whose pc is the
current one, still held by `pc` (R108, R221, R222). -/
def Obligations.FaultingStepsChangeOnlyModeAndRecord : Prop :=
  ∀ s t : State, s.mode = .running → step s = .next t → t.mode = .faulted →
    ∃ k w, FaultedWith s t k w

/-- Which instruction raises which fault and when, with its word and its address; in every other case no fault is raised
(R220, R227). -/
def Obligations.InstructionsFaultExactlyWhenTheirCheckFails : Prop :=
  ∀ (i : Instr) (s : State), s.mode = .running →
    match faultOf i s with
    | some k => ∃ t, exec i s = .next t ∧ FaultedWith s t k (some (encode i))
    | none => ∃ t, exec i s = .next t ∧ t.mode ≠ .faulted ∧ t.fault = s.fault

/-- No step stops: every step from every state answers a next state (R107). -/
def Obligations.EveryStepAnswersANextState : Prop := ∀ s : State, ∃ t, step s = .next t

/-- The MODEL's convention (log 9): a table word placed by `withFetchWord` is the instruction the next step runs. -/
def Obligations.PlacedWordIsRunNext : Prop :=
  ∀ (s : State) (w : Nat) (i : Instr), decodeTableWord 16 w = some i →
    step (s.withFetchWord 16 w) = exec i (s.withFetchWord 16 w)

/-! ### Registers, arithmetic and logic -/

/-- LD Vx, byte and ADD Vx, byte: the result modulo 256, no flag, `pc + 2`, nothing else (R142, R143). -/
def Obligations.ImmediateFormsWriteVxOnly : Prop :=
  ∀ (s : State) (x : RegIdx) (kk : Byte),
    (decode (wordXKK 0x6 x kk) = .instr (.ldByte x kk) ∧
      ∃ t, exec (.ldByte x kk) s = .next t ∧ t.readReg x = kk ∧ t.pc = s.pc + 2 ∧ OnlyRegsAndPc s t [x]) ∧
    (decode (wordXKK 0x7 x kk) = .instr (.addByte x kk) ∧
      ∃ t, exec (.addByte x kk) s = .next t ∧
        (t.readReg x).toNat = ((s.readReg x).toNat + kk.toNat) % 256 ∧ t.pc = s.pc + 2 ∧ OnlyRegsAndPc s t [x])

/-- LD, OR, AND, XOR Vx, Vy: the result, no flag, `pc + 2`, nothing else (R144 to R147). -/
def Obligations.CopyAndLogicWriteVxOnly : Prop :=
  ∀ (s : State) (x y : RegIdx),
    (decode (wordXYN 0x8 x y 0x0) = .instr (.ldReg x y) ∧
      ∃ t, exec (.ldReg x y) s = .next t ∧ t.readReg x = s.readReg y ∧ t.pc = s.pc + 2 ∧ OnlyRegsAndPc s t [x]) ∧
    (decode (wordXYN 0x8 x y 0x1) = .instr (.orReg x y) ∧
      ∃ t, exec (.orReg x y) s = .next t ∧ t.readReg x = (s.readReg x ||| s.readReg y) ∧ t.pc = s.pc + 2 ∧
        OnlyRegsAndPc s t [x]) ∧
    (decode (wordXYN 0x8 x y 0x2) = .instr (.andReg x y) ∧
      ∃ t, exec (.andReg x y) s = .next t ∧ t.readReg x = (s.readReg x &&& s.readReg y) ∧ t.pc = s.pc + 2 ∧
        OnlyRegsAndPc s t [x]) ∧
    (decode (wordXYN 0x8 x y 0x3) = .instr (.xorReg x y) ∧
      ∃ t, exec (.xorReg x y) s = .next t ∧ t.readReg x = (s.readReg x ^^^ s.readReg y) ∧ t.pc = s.pc + 2 ∧
        OnlyRegsAndPc s t [x])

/-- ADD Vx, Vy: the sum modulo 256 and the carry in VF, written last; nothing else (R148). -/
def Obligations.AddGivesSumAndCarry : Prop :=
  ∀ (s : State) (x y : RegIdx),
    decode (wordXYN 0x8 x y 0x4) = .instr (.addReg x y) ∧
    ∃ t, exec (.addReg x y) s = .next t ∧
      (x ≠ VF → (t.readReg x).toNat = ((s.readReg x).toNat + (s.readReg y).toNat) % 256) ∧
      t.readReg VF = (if (s.readReg x).toNat + (s.readReg y).toNat > 255 then 1 else 0) ∧
      t.pc = s.pc + 2 ∧ OnlyRegsAndPc s t [x, VF]

/-- SUB and SUBN: the difference modulo 256 and no-borrow in VF, written last; nothing else (R149, R151). -/
def Obligations.SubtractionsGiveDifferenceAndNoBorrow : Prop :=
  ∀ (s : State) (x y : RegIdx),
    (decode (wordXYN 0x8 x y 0x5) = .instr (.subReg x y) ∧
      ∃ t, exec (.subReg x y) s = .next t ∧
        (x ≠ VF → (t.readReg x).toNat = ((s.readReg x).toNat + 256 - (s.readReg y).toNat) % 256) ∧
        t.readReg VF = (if (s.readReg x).toNat ≥ (s.readReg y).toNat then 1 else 0) ∧
        t.pc = s.pc + 2 ∧ OnlyRegsAndPc s t [x, VF]) ∧
    (decode (wordXYN 0x8 x y 0x7) = .instr (.subn x y) ∧
      ∃ t, exec (.subn x y) s = .next t ∧
        (x ≠ VF → (t.readReg x).toNat = ((s.readReg y).toNat + 256 - (s.readReg x).toNat) % 256) ∧
        t.readReg VF = (if (s.readReg y).toNat ≥ (s.readReg x).toNat then 1 else 0) ∧
        t.pc = s.pc + 2 ∧ OnlyRegsAndPc s t [x, VF])

/-- SHR and SHL: the shifted value and the bit shifted out in VF, written last, whatever `y`; nothing else (R150, R152). -/
def Obligations.ShiftsGiveTheBitShiftedOut : Prop :=
  ∀ (s : State) (x y : RegIdx),
    (decode (wordXYN 0x8 x y 0x6) = .instr (.shr x y) ∧
      ∃ t, exec (.shr x y) s = .next t ∧
        (x ≠ VF → (t.readReg x).toNat = (s.readReg x).toNat / 2) ∧
        (t.readReg VF).toNat = (s.readReg x).toNat % 2 ∧ t.pc = s.pc + 2 ∧ OnlyRegsAndPc s t [x, VF]) ∧
    (decode (wordXYN 0x8 x y 0xE) = .instr (.shl x y) ∧
      ∃ t, exec (.shl x y) s = .next t ∧
        (x ≠ VF → (t.readReg x).toNat = 2 * (s.readReg x).toNat % 256) ∧
        (t.readReg VF).toNat = (s.readReg x).toNat / 128 ∧ t.pc = s.pc + 2 ∧ OnlyRegsAndPc s t [x, VF])

/-- RND Vx, byte: the drawn byte masked by `kk`, whatever byte is drawn, and nothing else but `pc + 2` (R153). That the
draw is `Config.drawByte` of the model's own count of draws, which rises by one, is the MODEL's choice (logs 2, 4). With
`kk = 0` the result is 0. -/
def Obligations.RndGivesTheDrawnByteMasked : Prop :=
  ∀ (s : State) (x : RegIdx) (kk : Byte),
    decode (wordXKK 0xC x kk) = .instr (.rnd x kk) ∧
    (∃ t, exec (.rnd x kk) s = .next t ∧ rndWith (Config.drawByte s.draws) x kk s = .next t ∧
      t.readReg x = (Config.drawByte s.draws &&& kk) ∧ (kk = 0 → t.readReg x = 0)) ∧
    ∀ r : Byte, ∃ t, rndWith r x kk s = .next t ∧ t.readReg x = (r &&& kk) ∧ t.pc = s.pc + 2 ∧
      t.draws = s.draws + 1 ∧ OnlyRegsAndPc s { t with draws := s.draws } [x]

/-- ADD then SUB of the same register, neither of the two being VF or the destination itself, restores the value (R154). -/
def Obligations.AddThenSubRestores : Prop :=
  ∀ (s : State) (x y : RegIdx), x ≠ VF → y ≠ VF → x ≠ y →
    ∃ t u, exec (.addReg x y) s = .next t ∧ exec (.subReg x y) t = .next u ∧ u.readReg x = s.readReg x ∧
      u.readReg y = s.readReg y

/-! ### Control flow -/

/-- JP addr and JP V0, addr: the target, absolute and modulo 4096 with V0; only `pc` changes (R123, R128). -/
def Obligations.JumpsSetThePcOnly : Prop :=
  ∀ (s : State) (nnn : Addr),
    (decode (wordNNN 0x1 nnn) = .instr (.jp nnn) ∧
      ∃ t, exec (.jp nnn) s = .next t ∧ t.pc.toNat = nnn.toNat ∧ OnlyPc s t) ∧
    (decode (wordNNN 0xB nnn) = .instr (.jpV0 nnn) ∧
      ∃ t, exec (.jpV0 nnn) s = .next t ∧ t.pc.toNat = ((s.readReg 0).toNat + nnn.toNat) % 4096 ∧ OnlyPc s t)

/-- CALL addr below depth 16: the CALL's own address is pushed, `pc` is the target, nothing else changes; at depth 16,
StackOverflow and nothing else (R122). -/
def Obligations.CallPushesItsOwnAddress : Prop :=
  ∀ (s : State) (nnn : Addr),
    decode (wordNNN 0x2 nnn) = .instr (.call nnn) ∧
    (s.SP.val < 16 →
      ∃ t, exec (.call nnn) s = .next t ∧ t.pc.toNat = nnn.toNat ∧ t.SP.val = s.SP.val + 1 ∧
        (∀ k : Fin 16, t.stack[k.val]'k.isLt = if k.val = s.SP.val then s.pc else s.stack[k.val]'k.isLt) ∧
        { t with stack := s.stack, SP := s.SP, pc := s.pc } = s) ∧
    (s.SP.val = 16 → s.mode = .running →
      ∃ t, exec (.call nnn) s = .next t ∧ FaultedWith s t .stackOverflow (some (wordNNN 0x2 nnn)))

/-- RET above depth 0: `pc` is the popped entry plus 2 and the depth falls by one, the entry left in place; at depth 0,
StackUnderflow and nothing else (R121). -/
def Obligations.RetReturnsPastThePushedAddress : Prop :=
  ∀ s : State,
    decode 0x00EE = .instr .ret ∧
    (∀ h : 0 < s.SP.val,
      ∃ t, exec .ret s = .next t ∧ t.pc = s.stack[s.SP.val - 1]'(by omega) + 2 ∧ t.SP.val + 1 = s.SP.val ∧
        { t with SP := s.SP, pc := s.pc } = s) ∧
    (s.SP.val = 0 → s.mode = .running →
      ∃ t, exec .ret s = .next t ∧ FaultedWith s t .stackUnderflow (some 0x00EE))

/-- A CALL and then a RET, whatever was done in between to anything but the stack, resume after the CALL at the depth
before it (R121, R122; C1). -/
def Obligations.CallThenRetResumesAfterTheCall : Prop :=
  ∀ (s t u : State) (nnn : Addr), s.SP.val < 16 → exec (.call nnn) s = .next t → u.stack = t.stack → u.SP = t.SP →
    ∃ v, exec .ret u = .next v ∧ v.pc = s.pc + 2 ∧ v.SP = s.SP

/-- The four register and immediate skips: `pc + 4` when the condition holds, else `pc + 2`; only `pc` changes; the
register forms with a low nibble other than 0 are Unknown (R124 to R127). -/
def Obligations.SkipsCompareForEquality : Prop :=
  ∀ (s : State) (x y : RegIdx) (kk : Byte),
    (decode (wordXKK 0x3 x kk) = .instr (.seByte x kk) ∧
      ∃ t, exec (.seByte x kk) s = .next t ∧ t.pc = (if s.readReg x = kk then s.pc + 4 else s.pc + 2) ∧ OnlyPc s t) ∧
    (decode (wordXKK 0x4 x kk) = .instr (.sneByte x kk) ∧
      ∃ t, exec (.sneByte x kk) s = .next t ∧ t.pc = (if s.readReg x ≠ kk then s.pc + 4 else s.pc + 2) ∧ OnlyPc s t) ∧
    (decode (wordXYN 0x5 x y 0) = .instr (.seReg x y) ∧
      ∃ t, exec (.seReg x y) s = .next t ∧ t.pc = (if s.readReg x = s.readReg y then s.pc + 4 else s.pc + 2) ∧
        OnlyPc s t) ∧
    (∀ n : Nibble, n ≠ 0 → decode (wordXYN 0x5 x y n) = .unknown (wordXYN 0x5 x y n)) ∧
    (decode (wordXYN 0x9 x y 0) = .instr (.sneReg x y) ∧
      ∃ t, exec (.sneReg x y) s = .next t ∧ t.pc = (if s.readReg x ≠ s.readReg y then s.pc + 4 else s.pc + 2) ∧
        OnlyPc s t) ∧
    (∀ n : Nibble, n ≠ 0 → decode (wordXYN 0x9 x y n) = .unknown (wordXYN 0x9 x y n))

/-- How an instruction executed in Running that raises no fault leaves `pc` and the mode: `pc` at its target for a jump
(two past the popped entry for RET), 2 or 4 on for a skip, unchanged for LD Vx, K, 2 on for every other one; the mode is
AwaitingKey after LD Vx, K and Running after every other one (R26, R104, R105). -/
def Obligations.PcAndModeFollowTheControlEffect : Prop :=
  ∀ (i : Instr) (s t : State), s.mode = .running → faultOf i s = none → exec i s = .next t →
    (isJump i = false → isSkip i = false → (∀ x, i ≠ .ldVxK x) → t.pc = s.pc + 2) ∧
    (isSkip i = true → t.pc = s.pc + 2 ∨ t.pc = s.pc + 4) ∧
    (∀ nnn, i = .jp nnn ∨ i = .call nnn → t.pc.toNat = nnn.toNat) ∧
    (∀ nnn, i = .jpV0 nnn → t.pc.toNat = ((s.readReg 0).toNat + nnn.toNat) % 4096) ∧
    (i = .ret → ∃ h : 0 < s.SP.val, t.pc = s.stack[s.SP.val - 1]'(by omega) + 2) ∧
    ((∀ x, i ≠ .ldVxK x) → t.mode = .running) ∧
    (∀ x, i = .ldVxK x → t.pc = s.pc ∧ t.mode = .awaitingKey x)

/-! ### Index register and memory transfers -/

/-- LD I, addr and LD F, Vx: the new `I`, all 8 bits of Vx used and the sum modulo 4096; nothing else but `pc + 2` (R170,
R172). -/
def Obligations.LoadIndexAndGlyphAddress : Prop :=
  ∀ (s : State) (nnn : Addr) (x : RegIdx),
    (decode (wordNNN 0xA nnn) = .instr (.ldI nnn) ∧
      ∃ t, exec (.ldI nnn) s = .next t ∧ t.I.toNat = nnn.toNat ∧ t.pc = s.pc + 2 ∧ OnlyIndexRegsAndPc s t []) ∧
    (decode (wordXKK 0xF x 0x29) = .instr (.ldF x) ∧
      ∃ t, exec (.ldF x) s = .next t ∧ t.I.toNat = (s.cfg.fontBase.toNat + (s.readReg x).toNat * 5) % 4096 ∧
        t.pc = s.pc + 2 ∧ OnlyIndexRegsAndPc s t [])

/-- ADD I, Vx: the sum modulo 4096; without the quirk no register is written, with it VF tells whether the sum passed
0xFFF; nothing else but `pc + 2` (R171). -/
def Obligations.AddIndexWrapsAndFlagsOnlyByQuirk : Prop :=
  ∀ (s : State) (x : RegIdx),
    decode (wordXKK 0xF x 0x1E) = .instr (.addI x) ∧
    ∃ t, exec (.addI x) s = .next t ∧ t.I.toNat = (s.I.toNat + (s.readReg x).toNat) % 4096 ∧ t.pc = s.pc + 2 ∧
      (s.cfg.quirkAddIVf = false → OnlyIndexRegsAndPc s t []) ∧
      (s.cfg.quirkAddIVf = true →
        t.readReg VF = (if s.I.toNat + (s.readReg x).toNat > 0xFFF then 1 else 0) ∧ OnlyIndexRegsAndPc s t [VF])

/-- LD B, Vx: hundreds, tens and ones in three cells from `I`, nothing else but `pc + 2`; if `I + 2 > 0xFFF`,
OutOfBoundsMemoryAccess and nothing else (R173). -/
def Obligations.BcdStoresThreeDigits : Prop :=
  ∀ (s : State) (x : RegIdx),
    decode (wordXKK 0xF x 0x33) = .instr (.ldB x) ∧
    (s.I.toNat + 2 ≤ 0xFFF →
      ∃ t, exec (.ldB x) s = .next t ∧
        (t.readByte (addrOf s.I.toNat)).toNat = (s.readReg x).toNat / 100 ∧
        (t.readByte (addrOf (s.I.toNat + 1))).toNat = (s.readReg x).toNat / 10 % 10 ∧
        (t.readByte (addrOf (s.I.toNat + 2))).toNat = (s.readReg x).toNat % 10 ∧
        t.pc = s.pc + 2 ∧ OnlyBytesAndPc s t s.I.toNat 3) ∧
    (s.I.toNat + 2 > 0xFFF → s.mode = .running →
      ∃ t, exec (.ldB x) s = .next t ∧ FaultedWith s t .outOfBoundsMemoryAccess (some (wordXKK 0xF x 0x33)))

/-- LD [I], Vx: V0 to Vx in the cells from `I`, nothing else but `pc + 2`; if `I + x > 0xFFF`, OutOfBoundsMemoryAccess and
nothing else (R174). -/
def Obligations.RegisterDumpStoresV0ToVx : Prop :=
  ∀ (s : State) (x : RegIdx),
    decode (wordXKK 0xF x 0x55) = .instr (.storeRegs x) ∧
    (s.I.toNat + x.toNat ≤ 0xFFF →
      ∃ t, exec (.storeRegs x) s = .next t ∧
        (∀ k : RegIdx, k.toNat ≤ x.toNat → t.readByte (addrOf (s.I.toNat + k.toNat)) = s.readReg k) ∧
        t.pc = s.pc + 2 ∧ OnlyBytesAndPc s t s.I.toNat (x.toNat + 1)) ∧
    (s.I.toNat + x.toNat > 0xFFF → s.mode = .running →
      ∃ t, exec (.storeRegs x) s = .next t ∧ FaultedWith s t .outOfBoundsMemoryAccess (some (wordXKK 0xF x 0x55)))

/-- LD Vx, [I]: V0 to Vx from the cells from `I`, the other registers and everything else kept but `pc + 2`; if
`I + x > 0xFFF`, OutOfBoundsMemoryAccess and nothing else (R175). -/
def Obligations.RegisterLoadReadsV0ToVx : Prop :=
  ∀ (s : State) (x : RegIdx),
    decode (wordXKK 0xF x 0x65) = .instr (.loadRegs x) ∧
    (s.I.toNat + x.toNat ≤ 0xFFF →
      ∃ t, exec (.loadRegs x) s = .next t ∧
        (∀ k : RegIdx, t.readReg k =
          if k.toNat ≤ x.toNat then s.readByte (addrOf (s.I.toNat + k.toNat)) else s.readReg k) ∧
        t.pc = s.pc + 2 ∧ BytesKept s t 0 0 ∧ { t with V := s.V, pc := s.pc } = s) ∧
    (s.I.toNat + x.toNat > 0xFFF → s.mode = .running →
      ∃ t, exec (.loadRegs x) s = .next t ∧ FaultedWith s t .outOfBoundsMemoryAccess (some (wordXKK 0xF x 0x65)))

/-- A register dump over the next instruction's two bytes is what the next fetch reads (R65): self-modifying code needs
nothing in between. -/
def Obligations.StoredBytesAreFetchedNext : Prop :=
  ∀ (s : State) (x : RegIdx), 1 ≤ x.toNat → s.I = s.pc + 2 → s.pc.toNat + 2 + x.toNat ≤ 0xFFF →
    ∃ t, exec (.storeRegs x) s = .next t ∧ t.fetchWord = (s.readReg 0 ++ s.readReg 1 : BitVec 16)

/-- Memories in canonical form that read the same at every address are the same data, so a state's equality is the
equality of what it holds. The canonical form is the MODEL's own (log 17). -/
def Obligations.CanonicalMemoriesAreEqualWhenTheyReadEqual : Prop :=
  ∀ (c : Config) (m m' : Memory), m.wf c = true → m'.wf c = true →
    (∀ a : Addr, Memory.read c m a = Memory.read c m' a) → m = m'

/-! ### Display -/

/-- CLS: every pixel 0 and `redraw` set, nothing else but `pc + 2` (R190). -/
def Obligations.ClsClearsEveryPixel : Prop :=
  ∀ s : State,
    decode 0x00E0 = .instr .cls ∧
    ∃ t, exec .cls s = .next t ∧ (∀ px py, t.pixel px py = false) ∧ t.redraw = true ∧ t.pc = s.pc + 2 ∧
      OnlyDisplayRegsAndPc s t []

/-- DRW: the covered pixels are toggled and no other, VF tells whether one of them was set, `redraw` is set, nothing else
changes but `pc + 2`; `n = 0` covers no pixel; a sprite past 0xFFF raises OutOfBoundsMemoryAccess and changes nothing else
(R191, R192). -/
def Obligations.DrwTogglesCoveredPixelsAndReportsCollision : Prop :=
  ∀ (s : State) (x y : RegIdx) (n : Nibble),
    decode (wordXYN 0xD x y n) = .instr (.drw x y n) ∧
    (n.toNat = 0 ∨ s.I.toNat + n.toNat - 1 ≤ 0xFFF →
      ∃ t, exec (.drw x y n) s = .next t ∧
        (∀ px py, (s.drwCovers x y n px py → t.pixel px py = !s.pixel px py) ∧
          (¬s.drwCovers x y n px py → t.pixel px py = s.pixel px py)) ∧
        ((∃ px py, s.drwCovers x y n px py ∧ s.pixel px py = true) → t.readReg VF = 1) ∧
        ((¬∃ px py, s.drwCovers x y n px py ∧ s.pixel px py = true) → t.readReg VF = 0) ∧
        t.redraw = true ∧ t.pc = s.pc + 2 ∧ OnlyDisplayRegsAndPc s t [VF]) ∧
    (n.toNat ≥ 1 → s.I.toNat + n.toNat - 1 > 0xFFF → s.mode = .running →
      ∃ t, exec (.drw x y n) s = .next t ∧
        FaultedWith s t .outOfBoundsMemoryAccess (some (wordXYN 0xD x y n)))

/-- Two DRWs with the same `I`, height, coordinates and sprite bytes leave the display as it was before the first; the
second reports a collision exactly when some set sprite bit lands on a pixel that was 0 before the first, which from a
clear display means exactly when the sprite has any set bit (R193). -/
def Obligations.DrawingTwiceRestoresTheDisplay : Prop :=
  ∀ (s t s' : State) (x y : RegIdx) (n : Nibble),
    (n.toNat = 0 ∨ s.I.toNat + n.toNat - 1 ≤ 0xFFF) →
    exec (.drw x y n) s = .next t →
    s'.disp = t.disp → s'.I = s.I → s'.readReg x = s.readReg x → s'.readReg y = s.readReg y →
    (∀ r, r < n.toNat → s'.readByte (addrOf (s.I.toNat + r)) = s.readByte (addrOf (s.I.toNat + r))) →
    ∃ u, exec (.drw x y n) s' = .next u ∧ (∀ px py, u.pixel px py = s.pixel px py) ∧
      (u.readReg VF = 1 ↔ ∃ px py, s.drwCovers x y n px py ∧ s.pixel px py = false) ∧
      ((∀ px py, s.pixel px py = false) →
        (u.readReg VF = 1 ↔
          ∃ r c : Nat, r < n.toNat ∧ c < 8 ∧ (s.readByte (addrOf (s.I.toNat + r))).getLsbD c = true))

/-! ### Timers and keys -/

/-- LD Vx, DT; LD DT, Vx; LD ST, Vx: the value copied whole, nothing else but `pc + 2`; `tone` follows ST at once (R201,
R202, R203). -/
def Obligations.TimerTransfersCopyTheValue : Prop :=
  ∀ (s : State) (x : RegIdx),
    (decode (wordXKK 0xF x 0x07) = .instr (.ldVxDt x) ∧
      ∃ t, exec (.ldVxDt x) s = .next t ∧ t.readReg x = s.DT ∧ t.pc = s.pc + 2 ∧ OnlyRegsAndPc s t [x]) ∧
    (decode (wordXKK 0xF x 0x15) = .instr (.ldDtVx x) ∧
      ∃ t, exec (.ldDtVx x) s = .next t ∧ t.DT = s.readReg x ∧ t.pc = s.pc + 2 ∧
        OnlyRegsAndPc s { t with DT := s.DT } []) ∧
    (decode (wordXKK 0xF x 0x18) = .instr (.ldStVx x) ∧
      ∃ t, exec (.ldStVx x) s = .next t ∧ t.ST = s.readReg x ∧ t.tone = decide ((s.readReg x).toNat > 0) ∧
        t.pc = s.pc + 2 ∧ OnlyRegsAndPc s { t with ST := s.ST } [])

/-- SKP and SKNP: a key index of 0..15 skips by the latch and changes only `pc`; above 15, KeyIndexOutOfRange and nothing
else (R204, R205). -/
def Obligations.KeySkipsReadTheLatch : Prop :=
  ∀ (s : State) (x : RegIdx),
    (decode (wordXKK 0xE x 0x9E) = .instr (.skp x) ∧
      (∀ k : Fin 16, (s.readReg x).toNat = k.val →
        ∃ t, exec (.skp x) s = .next t ∧ t.pc = (if s.readKey k = true then s.pc + 4 else s.pc + 2) ∧ OnlyPc s t) ∧
      ((s.readReg x).toNat > 15 → s.mode = .running →
        ∃ t, exec (.skp x) s = .next t ∧ FaultedWith s t .keyIndexOutOfRange (some (wordXKK 0xE x 0x9E)))) ∧
    (decode (wordXKK 0xE x 0xA1) = .instr (.sknp x) ∧
      (∀ k : Fin 16, (s.readReg x).toNat = k.val →
        ∃ t, exec (.sknp x) s = .next t ∧ t.pc = (if s.readKey k = false then s.pc + 4 else s.pc + 2) ∧ OnlyPc s t) ∧
      ((s.readReg x).toNat > 15 → s.mode = .running →
        ∃ t, exec (.sknp x) s = .next t ∧ FaultedWith s t .keyIndexOutOfRange (some (wordXKK 0xE x 0xA1))))

/-- LD Vx, K: the step that executes it begins the wait with register `x`, samples no key and changes nothing else; each
later step with no key pressed changes nothing, and the first with a key pressed stores the index of some pressed key in
Vx, adds 2 to `pc`, returns to Running and does nothing else but count the draw (R206, R106; logs 3, 4). -/
def Obligations.KeyWaitBeginsAndCompletes : Prop :=
  ∀ (s : State) (x : RegIdx),
    (decode (wordXKK 0xF x 0x0A) = .instr (.ldVxK x) ∧
      ∃ t, exec (.ldVxK x) s = .next t ∧ t.mode = .awaitingKey x ∧ { t with mode := s.mode } = s) ∧
    (s.mode = .awaitingKey x →
      ((∀ k, s.readKey k = false) → step s = .next s) ∧
      ((∃ k, s.readKey k = true) →
        ∃ t k, step s = .next t ∧ s.readKey k = true ∧ t.readReg x = BitVec.ofNat 8 k.val ∧ t.pc = s.pc + 2 ∧
          t.mode = .running ∧ RegsKept s t [x] ∧ BytesKept s t 0 0 ∧
          { t with V := s.V, pc := s.pc, mode := s.mode, draws := s.draws } = s))

/-- What can end a key wait: a step that finds a key pressed, reset, or the fault of an oversized load (R206, R207, R262);
until then mode and `pc` stay. That the fault ends the wait is read from R221 and R262 against R207's words (log 15). -/
def Obligations.AwaitingKeyIsLeftOnlyByKeyResetOrFault : Prop :=
  ∀ (s t : State) (x : RegIdx) (τ : Transaction), s.mode = .awaitingKey x → transact τ s = .next t →
    (t.mode = .awaitingKey x ∧ t.pc = s.pc) ∨ (τ = .step ∧ t.mode = .running ∧ ∃ k, s.readKey k = true) ∨
      τ = .reset ∨ (∃ image, τ = .load image ∧ image.length > 3584 ∧ t.mode = .faulted)

/-! ### Who writes what -/

/-- No instruction but LD I, ADD I and LD F writes `I` (R24). -/
def Obligations.OnlyThreeInstructionsWriteIndex : Prop :=
  ∀ (i : Instr) (s t : State), exec i s = .next t → (∀ nnn, i ≠ .ldI nnn) → (∀ x, i ≠ .addI x) → (∀ x, i ≠ .ldF x) →
    t.I = s.I

/-- No instruction but LD B and LD [I] writes memory (R55): every byte reads as before. -/
def Obligations.OnlyBcdAndRegisterDumpWriteMemory : Prop :=
  ∀ (i : Instr) (s t : State), exec i s = .next t → (∀ x, i ≠ .ldB x) → (∀ x, i ≠ .storeRegs x) →
    ∀ a : Addr, t.readByte a = s.readByte a

/-- Among instructions, only CLS and DRW change a pixel or `redraw`, and neither clears `redraw`; only CALL and RET touch
the stack; only LD DT and LD ST write a timer; none writes a key (R27 to R31). -/
def Obligations.DisplayStackTimersAndKeysHaveTheirWriters : Prop :=
  ∀ (i : Instr) (s t : State), exec i s = .next t →
    (i ≠ .cls → (∀ x y n, i ≠ .drw x y n) → PixelsKept s t ∧ t.redraw = s.redraw) ∧
    (s.redraw = true → t.redraw = true) ∧
    ((∀ nnn, i ≠ .call nnn) → i ≠ .ret → t.stack = s.stack ∧ t.SP = s.SP) ∧
    ((∀ x, i ≠ .ldDtVx x) → t.DT = s.DT) ∧ ((∀ x, i ≠ .ldStVx x) → t.ST = s.ST) ∧
    t.key = s.key ∧ t.cfg = s.cfg

/-- VF is written as a flag by the instructions of R22's list only, and otherwise only as a destination (R22). -/
def Obligations.VfIsWrittenOnlyAsFlagOrDestination : Prop :=
  ∀ (i : Instr) (s t : State), exec i s = .next t → writesFlag s.cfg i = false → destination i ≠ some VF →
    t.readReg VF = s.readReg VF

/-- No step reads ST or `redraw` (R28, R36): two states that differ only in them go to states that differ at most in
them. The two steps are compared at the same count of draws, so that RND and the key wait draw the same value in both is
the MODEL's choice (logs 2, 3), which the hardware's draws need not share. -/
def Obligations.StepsDoNotReadSoundTimerOrRedraw : Prop :=
  ∀ (s t : State) (v : Byte) (b : Bool), step s = .next t →
    ∃ t', step { s with ST := v, redraw := b } = .next t' ∧ { t' with ST := t.ST, redraw := t.redraw } = t

/-! ### Invariants -/

/-- The reset state meets the invariant (R38, R260; its clauses on the memory's form and the parameters are the MODEL's,
logs 17 and 5). -/
def Obligations.ResetMeetsTheInvariant : Prop := Inv State.reset

/-- Every step keeps the invariant (R25, R27, R35, R38; its clauses on the memory's form and the parameters are the MODEL's,
logs 17 and 5). -/
def Obligations.StepsKeepTheInvariant : Prop := ∀ s t : State, Inv s → step s = .next t → Inv t

/-- Every run of host transactions, in any order, keeps the invariant, and none stops (R38, R61, R271; the clauses as for
StepsKeepTheInvariant). -/
def Obligations.RunsKeepTheInvariant : Prop :=
  ∀ (τs : List Transaction) (s : State), Inv s → ∃ t, runTransactions τs s = .next t ∧ Inv t

/-! ### Reset, load and the host's transactions -/

/-- `reset()` from any state, in every mode: each state item at its reset value, the key latch unchanged (R260). The
parameters are the machine's own; the font lies where they say (R8). -/
def Obligations.ResetSetsEveryItemButTheKeys : Prop :=
  ∀ s : State, s.cfg.wf = true →
    ∃ t, transact .reset s = .next t ∧ (∀ x, t.readReg x = 0) ∧ t.I = 0 ∧ t.pc = 0x200 ∧
      (∀ k : Fin 16, t.stack[k.val]'k.isLt = 0) ∧ t.SP = 0 ∧ t.DT = 0 ∧ t.ST = 0 ∧ (∀ px py, t.pixel px py = false) ∧
      t.redraw = false ∧ t.mode = .running ∧ t.fault = none ∧ (∀ k, t.readKey k = s.readKey k) ∧
      (∀ k : Fin 80, t.readByte (addrOf (s.cfg.fontBase.toNat + k.val)) = s.cfg.fontData[k.val]'k.isLt) ∧
      (∀ a : Addr, a.toNat < s.cfg.fontBase.toNat ∨ s.cfg.fontBase.toNat + 80 ≤ a.toNat → t.readByte a = 0)

/-- `load(image)`: at most 3584 bytes are copied from 0x200 and nothing else changes; a larger image raises
InvalidImageSize with no word and writes no byte, unless the machine is Faulted already, when nothing changes (R262). -/
def Obligations.LoadCopiesTheImageOrFaults : Prop :=
  ∀ (s : State) (image : List Byte),
    (image.length ≤ 3584 →
      ∃ t, transact (.load image) s = .next t ∧
        (∀ k (h : k < image.length), t.readByte (addrOf (0x200 + k)) = image[k]) ∧
        BytesKept s t 0x200 image.length ∧ { t with mem := s.mem } = s ∧ respond (.load image) s = .loadOk) ∧
    (image.length > 3584 →
      ∃ t, transact (.load image) s = .next t ∧ respond (.load image) s = .loadInvalidImageSize ∧
        (s.mode ≠ .faulted → FaultedWith s t .invalidImageSize none) ∧ (s.mode = .faulted → t = s))

/-- After `reset()` and `load(image)`, in any state before, the machine is Running at 0x200 with the image there (R270). -/
def Obligations.BootPlacesTheProgramAtTheEntryPoint : Prop :=
  ∀ (s : State) (image : List Byte), image.length ≤ 3584 →
    ∃ t, runTransactions [.reset, .load image] s = .next t ∧ t.mode = .running ∧ t.pc = 0x200 ∧ t.fault = none ∧
      (∀ k (h : k < image.length), t.readByte (addrOf (0x200 + k)) = image[k])

/-- `tick_timers()` in every mode: each timer falls by one, floored at 0; nothing else changes (R235). -/
def Obligations.TicksDecrementBothTimers : Prop :=
  ∀ s : State, ∃ t, transact .tickTimers s = .next t ∧ t.DT.toNat = s.DT.toNat - 1 ∧ t.ST.toNat = s.ST.toNat - 1 ∧
    { t with DT := s.DT, ST := s.ST } = s

/-- The latch and the reads: `set_key` writes one key and nothing else; `get_key`, `read_display` and `read_status` return
the latch bit, the display and the status and change nothing; `ack_redraw` clears `redraw` and nothing else (R237 to
R241). -/
def Obligations.HostReadsAndWritesOnlyWhatTheyName : Prop :=
  ∀ (s : State) (k : Fin 16) (p : Bool),
    (∃ t, transact (.setKey k p) s = .next t ∧ (∀ l, t.readKey l = if l = k then p else s.readKey l) ∧
      { t with key := s.key } = s) ∧
    (transact (.getKey k) s = .next s ∧ respond (.getKey k) s = .key (s.readKey k)) ∧
    (transact .readDisplay s = .next s ∧ respond .readDisplay s = .display s.disp) ∧
    (∃ t, transact .ackRedraw s = .next t ∧ t.redraw = false ∧ { t with redraw := s.redraw } = s) ∧
    (transact .readStatus s = .next s ∧
      respond .readStatus s = .status ⟨s.redraw, decide (s.ST.toNat > 0), s.DT, s.ST, s.mode, s.fault⟩)

/-- The ports that carry state (R242): `disp_out` bit `y*64 + x` is `disp[x][y]`; `mode_out` is 0, 1 or 2; `tone_out` is
`ST > 0`; with no fault `fault_code` is 0, and with one it is the code of the kind (R220), `fault_pc` the recorded pc, and
`fault_word` the recorded word or 0, as `fault_word_valid` says; `key_in` is the sixteen `set_key`s, bit `k` to key `k`,
and changes nothing else. That the sixteen are made in ascending order is the MODEL's choice (log 16). -/
def Obligations.PortsShowTheStateAndSetTheKeys : Prop :=
  (∀ (s : State) (px : Fin 64) (py : Fin 32), s.dispOut.getLsbD (py.val * 64 + px.val) = s.pixel px py) ∧
  (∀ s : State, (s.mode = .running → s.modeOut = 0) ∧ (∀ x, s.mode = .awaitingKey x → s.modeOut = 1) ∧
    (s.mode = .faulted → s.modeOut = 2) ∧ (s.tone = true ↔ s.ST.toNat > 0)) ∧
  (∀ s : State, s.fault = none → s.faultCode = 0) ∧
  (∀ (s : State) (r : FaultRecord), s.fault = some r → s.faultCode = r.kind.code ∧ s.faultPc = r.pc ∧
    (∀ w, r.word = some w → s.faultWordValid = true ∧ s.faultWord = w) ∧
    (r.word = none → s.faultWordValid = false ∧ s.faultWord = 0)) ∧
  ([FaultKind.stackOverflow, .stackUnderflow, .outOfBoundsMemoryAccess, .unknownOpcode, .invalidImageSize,
    .keyIndexOutOfRange].map FaultKind.code = [1, 2, 3, 4, 5, 6]) ∧
  (∀ (s : State) (keyIn : BitVec 16),
    (∀ k : Fin 16, (s.setKeys keyIn).readKey k = keyIn.getLsbD k.val) ∧ { s.setKeys keyIn with key := s.key } = s ∧
      runTransactions ((List.finRange 16).map fun k => .setKey k (keyIn.getLsbD k.val)) s = .next (s.setKeys keyIn))

/-- At the end of a run the engine keeps executing the jump for ever: the step leaves the state as it is (R274, R123). -/
def Obligations.EndOfRunStepsInPlace : Prop := ∀ s : State, s.atEnd → step s = .next s

/-- The end of the run of a program is the FIRST state of it, from boot on, that is Running with `pc <= 0xFFE` and a jump
to itself at `pc`; a later reset and what follows it do not matter; the run is successful when no fault is recorded there
(R270, R274). That a reset ends the run is read from R270 (log 21). -/
def Obligations.EndOfRunIsTheFirstJumpToItself : Prop :=
  ∀ (s : State) (image : List Byte) (τs : List Transaction), Transaction.reset ∉ τs →
    (∀ t, s.endOfRun image τs = some t ↔ FirstEndOfRun s image τs t) ∧
    (∀ later, s.endOfRun image (τs ++ .reset :: later) = s.endOfRun image τs) ∧
    (s.runSucceeds image τs = true ↔ ∃ t, FirstEndOfRun s image τs t ∧ t.fault = none)

/-- Every end that a run reaches is Running with no fault recorded, so it is a successful one; and after it the engine
goes on: whatever steps, ticks, key changes and reads follow, the machine stays at the jump, and nothing changes but
timers, keys and `redraw` (R274). -/
def Obligations.EndsAreSuccessfulAndTheEngineKeepsJumping : Prop :=
  ∀ (s t : State) (image : List Byte) (τs later : List Transaction), s.cfg.wf = true → s.endOfRun image τs = some t →
    t.successfulEnd ∧
    ((∀ τ ∈ later, τ ≠ .reset ∧ ∀ im, τ ≠ .load im) →
      ∃ u, runTransactions later t = .next u ∧ u.atEnd = true ∧
        { u with DT := t.DT, ST := t.ST, key := t.key, redraw := t.redraw } = t)
end

