-- ==== Sys2Proof/Laws/State.lean ====
section
/-! SUPPORT. What each update of the state leaves and what it writes, one lemma per field, so that no later proof unfolds
a record update. -/

namespace Sys2Proof.Machine

variable (s : State)

/-! ### Registers -/

@[simp] theorem State.writeReg_V (x : RegIdx) (v : Byte) : (s.writeReg x v).V = s.V.set x.toNat v x.isLt := rfl
@[simp] theorem State.writeReg_I (x : RegIdx) (v : Byte) : (s.writeReg x v).I = s.I := rfl
@[simp] theorem State.writeReg_pc (x : RegIdx) (v : Byte) : (s.writeReg x v).pc = s.pc := rfl
@[simp] theorem State.writeReg_stack (x : RegIdx) (v : Byte) : (s.writeReg x v).stack = s.stack := rfl
@[simp] theorem State.writeReg_SP (x : RegIdx) (v : Byte) : (s.writeReg x v).SP = s.SP := rfl
@[simp] theorem State.writeReg_DT (x : RegIdx) (v : Byte) : (s.writeReg x v).DT = s.DT := rfl
@[simp] theorem State.writeReg_ST (x : RegIdx) (v : Byte) : (s.writeReg x v).ST = s.ST := rfl
@[simp] theorem State.writeReg_key (x : RegIdx) (v : Byte) : (s.writeReg x v).key = s.key := rfl
@[simp] theorem State.writeReg_disp (x : RegIdx) (v : Byte) : (s.writeReg x v).disp = s.disp := rfl
@[simp] theorem State.writeReg_redraw (x : RegIdx) (v : Byte) : (s.writeReg x v).redraw = s.redraw := rfl
@[simp] theorem State.writeReg_mode (x : RegIdx) (v : Byte) : (s.writeReg x v).mode = s.mode := rfl
@[simp] theorem State.writeReg_fault (x : RegIdx) (v : Byte) : (s.writeReg x v).fault = s.fault := rfl
@[simp] theorem State.writeReg_mem (x : RegIdx) (v : Byte) : (s.writeReg x v).mem = s.mem := rfl
@[simp] theorem State.writeReg_cfg (x : RegIdx) (v : Byte) : (s.writeReg x v).cfg = s.cfg := rfl
@[simp] theorem State.writeReg_draws (x : RegIdx) (v : Byte) : (s.writeReg x v).draws = s.draws := rfl

@[simp] theorem State.writeI_V (v : Word) : (s.writeI v).V = s.V := rfl
@[simp] theorem State.writeI_I (v : Word) : (s.writeI v).I = v &&& 0x0FFF := rfl
@[simp] theorem State.writeI_pc (v : Word) : (s.writeI v).pc = s.pc := rfl
@[simp] theorem State.writeI_stack (v : Word) : (s.writeI v).stack = s.stack := rfl
@[simp] theorem State.writeI_SP (v : Word) : (s.writeI v).SP = s.SP := rfl
@[simp] theorem State.writeI_DT (v : Word) : (s.writeI v).DT = s.DT := rfl
@[simp] theorem State.writeI_ST (v : Word) : (s.writeI v).ST = s.ST := rfl
@[simp] theorem State.writeI_key (v : Word) : (s.writeI v).key = s.key := rfl
@[simp] theorem State.writeI_disp (v : Word) : (s.writeI v).disp = s.disp := rfl
@[simp] theorem State.writeI_redraw (v : Word) : (s.writeI v).redraw = s.redraw := rfl
@[simp] theorem State.writeI_mode (v : Word) : (s.writeI v).mode = s.mode := rfl
@[simp] theorem State.writeI_fault (v : Word) : (s.writeI v).fault = s.fault := rfl
@[simp] theorem State.writeI_mem (v : Word) : (s.writeI v).mem = s.mem := rfl
@[simp] theorem State.writeI_cfg (v : Word) : (s.writeI v).cfg = s.cfg := rfl
@[simp] theorem State.writeI_draws (v : Word) : (s.writeI v).draws = s.draws := rfl

@[simp] theorem State.writeResultFlag_I (x : RegIdx) (r : Byte) (f : Bool) : (s.writeResultFlag x r f).I = s.I := rfl
@[simp] theorem State.writeResultFlag_pc (x : RegIdx) (r : Byte) (f : Bool) : (s.writeResultFlag x r f).pc = s.pc := rfl
@[simp] theorem State.writeResultFlag_stack (x : RegIdx) (r : Byte) (f : Bool) : (s.writeResultFlag x r f).stack = s.stack := rfl
@[simp] theorem State.writeResultFlag_SP (x : RegIdx) (r : Byte) (f : Bool) : (s.writeResultFlag x r f).SP = s.SP := rfl
@[simp] theorem State.writeResultFlag_DT (x : RegIdx) (r : Byte) (f : Bool) : (s.writeResultFlag x r f).DT = s.DT := rfl
@[simp] theorem State.writeResultFlag_ST (x : RegIdx) (r : Byte) (f : Bool) : (s.writeResultFlag x r f).ST = s.ST := rfl
@[simp] theorem State.writeResultFlag_key (x : RegIdx) (r : Byte) (f : Bool) : (s.writeResultFlag x r f).key = s.key := rfl
@[simp] theorem State.writeResultFlag_disp (x : RegIdx) (r : Byte) (f : Bool) : (s.writeResultFlag x r f).disp = s.disp := rfl
@[simp] theorem State.writeResultFlag_redraw (x : RegIdx) (r : Byte) (f : Bool) : (s.writeResultFlag x r f).redraw = s.redraw := rfl
@[simp] theorem State.writeResultFlag_mode (x : RegIdx) (r : Byte) (f : Bool) : (s.writeResultFlag x r f).mode = s.mode := rfl
@[simp] theorem State.writeResultFlag_fault (x : RegIdx) (r : Byte) (f : Bool) : (s.writeResultFlag x r f).fault = s.fault := rfl
@[simp] theorem State.writeResultFlag_mem (x : RegIdx) (r : Byte) (f : Bool) : (s.writeResultFlag x r f).mem = s.mem := rfl
@[simp] theorem State.writeResultFlag_cfg (x : RegIdx) (r : Byte) (f : Bool) : (s.writeResultFlag x r f).cfg = s.cfg := rfl
@[simp] theorem State.writeResultFlag_draws (x : RegIdx) (r : Byte) (f : Bool) : (s.writeResultFlag x r f).draws = s.draws := rfl

/-- `writeRegs` writes `V` only. -/
theorem State.writeRegs_frame (k : Nat) (bs : List Byte) : s.writeRegs k bs = { s with V := (s.writeRegs k bs).V } := by
  induction bs generalizing s k with
  | nil => rfl
  | cons b bs ih => rw [State.writeRegs, ih]; rfl

@[simp] theorem State.writeRegs_I (k : Nat) (bs : List Byte) : (s.writeRegs k bs).I = s.I := by rw [State.writeRegs_frame]
@[simp] theorem State.writeRegs_pc (k : Nat) (bs : List Byte) : (s.writeRegs k bs).pc = s.pc := by rw [State.writeRegs_frame]
@[simp] theorem State.writeRegs_stack (k : Nat) (bs : List Byte) : (s.writeRegs k bs).stack = s.stack := by rw [State.writeRegs_frame]
@[simp] theorem State.writeRegs_SP (k : Nat) (bs : List Byte) : (s.writeRegs k bs).SP = s.SP := by rw [State.writeRegs_frame]
@[simp] theorem State.writeRegs_DT (k : Nat) (bs : List Byte) : (s.writeRegs k bs).DT = s.DT := by rw [State.writeRegs_frame]
@[simp] theorem State.writeRegs_ST (k : Nat) (bs : List Byte) : (s.writeRegs k bs).ST = s.ST := by rw [State.writeRegs_frame]
@[simp] theorem State.writeRegs_key (k : Nat) (bs : List Byte) : (s.writeRegs k bs).key = s.key := by rw [State.writeRegs_frame]
@[simp] theorem State.writeRegs_disp (k : Nat) (bs : List Byte) : (s.writeRegs k bs).disp = s.disp := by rw [State.writeRegs_frame]
@[simp] theorem State.writeRegs_redraw (k : Nat) (bs : List Byte) : (s.writeRegs k bs).redraw = s.redraw := by rw [State.writeRegs_frame]
@[simp] theorem State.writeRegs_mode (k : Nat) (bs : List Byte) : (s.writeRegs k bs).mode = s.mode := by rw [State.writeRegs_frame]
@[simp] theorem State.writeRegs_fault (k : Nat) (bs : List Byte) : (s.writeRegs k bs).fault = s.fault := by rw [State.writeRegs_frame]
@[simp] theorem State.writeRegs_mem (k : Nat) (bs : List Byte) : (s.writeRegs k bs).mem = s.mem := by rw [State.writeRegs_frame]
@[simp] theorem State.writeRegs_cfg (k : Nat) (bs : List Byte) : (s.writeRegs k bs).cfg = s.cfg := by rw [State.writeRegs_frame]
@[simp] theorem State.writeRegs_draws (k : Nat) (bs : List Byte) : (s.writeRegs k bs).draws = s.draws := by rw [State.writeRegs_frame]

/-! ### Memory -/

@[simp] theorem State.writeByte_V (a : Addr) (v : Byte) : (s.writeByte a v).V = s.V := rfl
@[simp] theorem State.writeByte_I (a : Addr) (v : Byte) : (s.writeByte a v).I = s.I := rfl
@[simp] theorem State.writeByte_pc (a : Addr) (v : Byte) : (s.writeByte a v).pc = s.pc := rfl
@[simp] theorem State.writeByte_stack (a : Addr) (v : Byte) : (s.writeByte a v).stack = s.stack := rfl
@[simp] theorem State.writeByte_SP (a : Addr) (v : Byte) : (s.writeByte a v).SP = s.SP := rfl
@[simp] theorem State.writeByte_DT (a : Addr) (v : Byte) : (s.writeByte a v).DT = s.DT := rfl
@[simp] theorem State.writeByte_ST (a : Addr) (v : Byte) : (s.writeByte a v).ST = s.ST := rfl
@[simp] theorem State.writeByte_key (a : Addr) (v : Byte) : (s.writeByte a v).key = s.key := rfl
@[simp] theorem State.writeByte_disp (a : Addr) (v : Byte) : (s.writeByte a v).disp = s.disp := rfl
@[simp] theorem State.writeByte_redraw (a : Addr) (v : Byte) : (s.writeByte a v).redraw = s.redraw := rfl
@[simp] theorem State.writeByte_mode (a : Addr) (v : Byte) : (s.writeByte a v).mode = s.mode := rfl
@[simp] theorem State.writeByte_fault (a : Addr) (v : Byte) : (s.writeByte a v).fault = s.fault := rfl
@[simp] theorem State.writeByte_mem (a : Addr) (v : Byte) : (s.writeByte a v).mem = s.mem.write s.cfg a v := rfl
@[simp] theorem State.writeByte_cfg (a : Addr) (v : Byte) : (s.writeByte a v).cfg = s.cfg := rfl
@[simp] theorem State.writeByte_draws (a : Addr) (v : Byte) : (s.writeByte a v).draws = s.draws := rfl

/-- `writeBytes` writes `mem` only. -/
theorem State.writeBytes_frame (a : Nat) (bs : List Byte) :
    s.writeBytes a bs = { s with mem := (s.writeBytes a bs).mem } := by
  induction bs generalizing s a with
  | nil => rfl
  | cons b bs ih => rw [State.writeBytes, ih]; rfl

@[simp] theorem State.writeBytes_V (a : Nat) (bs : List Byte) : (s.writeBytes a bs).V = s.V := by rw [State.writeBytes_frame]
@[simp] theorem State.writeBytes_I (a : Nat) (bs : List Byte) : (s.writeBytes a bs).I = s.I := by rw [State.writeBytes_frame]
@[simp] theorem State.writeBytes_pc (a : Nat) (bs : List Byte) : (s.writeBytes a bs).pc = s.pc := by rw [State.writeBytes_frame]
@[simp] theorem State.writeBytes_stack (a : Nat) (bs : List Byte) : (s.writeBytes a bs).stack = s.stack := by rw [State.writeBytes_frame]
@[simp] theorem State.writeBytes_SP (a : Nat) (bs : List Byte) : (s.writeBytes a bs).SP = s.SP := by rw [State.writeBytes_frame]
@[simp] theorem State.writeBytes_DT (a : Nat) (bs : List Byte) : (s.writeBytes a bs).DT = s.DT := by rw [State.writeBytes_frame]
@[simp] theorem State.writeBytes_ST (a : Nat) (bs : List Byte) : (s.writeBytes a bs).ST = s.ST := by rw [State.writeBytes_frame]
@[simp] theorem State.writeBytes_key (a : Nat) (bs : List Byte) : (s.writeBytes a bs).key = s.key := by rw [State.writeBytes_frame]
@[simp] theorem State.writeBytes_disp (a : Nat) (bs : List Byte) : (s.writeBytes a bs).disp = s.disp := by rw [State.writeBytes_frame]
@[simp] theorem State.writeBytes_redraw (a : Nat) (bs : List Byte) : (s.writeBytes a bs).redraw = s.redraw := by rw [State.writeBytes_frame]
@[simp] theorem State.writeBytes_mode (a : Nat) (bs : List Byte) : (s.writeBytes a bs).mode = s.mode := by rw [State.writeBytes_frame]
@[simp] theorem State.writeBytes_fault (a : Nat) (bs : List Byte) : (s.writeBytes a bs).fault = s.fault := by rw [State.writeBytes_frame]
@[simp] theorem State.writeBytes_cfg (a : Nat) (bs : List Byte) : (s.writeBytes a bs).cfg = s.cfg := by rw [State.writeBytes_frame]
@[simp] theorem State.writeBytes_draws (a : Nat) (bs : List Byte) : (s.writeBytes a bs).draws = s.draws := by rw [State.writeBytes_frame]

/-! ### Control effects -/

@[simp] theorem State.applyEffect_V (e : Effect) : (s.applyEffect e).V = s.V := by cases e <;> rfl
@[simp] theorem State.applyEffect_I (e : Effect) : (s.applyEffect e).I = s.I := by cases e <;> rfl
@[simp] theorem State.applyEffect_stack (e : Effect) : (s.applyEffect e).stack = s.stack := by cases e <;> rfl
@[simp] theorem State.applyEffect_SP (e : Effect) : (s.applyEffect e).SP = s.SP := by cases e <;> rfl
@[simp] theorem State.applyEffect_DT (e : Effect) : (s.applyEffect e).DT = s.DT := by cases e <;> rfl
@[simp] theorem State.applyEffect_ST (e : Effect) : (s.applyEffect e).ST = s.ST := by cases e <;> rfl
@[simp] theorem State.applyEffect_key (e : Effect) : (s.applyEffect e).key = s.key := by cases e <;> rfl
@[simp] theorem State.applyEffect_disp (e : Effect) : (s.applyEffect e).disp = s.disp := by cases e <;> rfl
@[simp] theorem State.applyEffect_redraw (e : Effect) : (s.applyEffect e).redraw = s.redraw := by cases e <;> rfl
@[simp] theorem State.applyEffect_fault (e : Effect) : (s.applyEffect e).fault = s.fault := by cases e <;> rfl
@[simp] theorem State.applyEffect_mem (e : Effect) : (s.applyEffect e).mem = s.mem := by cases e <;> rfl
@[simp] theorem State.applyEffect_cfg (e : Effect) : (s.applyEffect e).cfg = s.cfg := by cases e <;> rfl
@[simp] theorem State.applyEffect_draws (e : Effect) : (s.applyEffect e).draws = s.draws := by cases e <;> rfl

@[simp] theorem State.applyEffect_next_pc : (s.applyEffect .next).pc = s.pc + 2 := rfl
@[simp] theorem State.applyEffect_next_mode : (s.applyEffect .next).mode = s.mode := rfl
@[simp] theorem State.applyEffect_skip_pc : (s.applyEffect .skip).pc = s.pc + 4 := rfl
@[simp] theorem State.applyEffect_skip_mode : (s.applyEffect .skip).mode = s.mode := rfl
@[simp] theorem State.applyEffect_jump_pc (t : Word) : (s.applyEffect (.jump t)).pc = t := rfl
@[simp] theorem State.applyEffect_jump_mode (t : Word) : (s.applyEffect (.jump t)).mode = s.mode := rfl
@[simp] theorem State.applyEffect_wait_pc (x : RegIdx) : (s.applyEffect (.wait x)).pc = s.pc := rfl
@[simp] theorem State.applyEffect_wait_mode (x : RegIdx) : (s.applyEffect (.wait x)).mode = .awaitingKey x := rfl

@[simp] theorem State.applyEffect_skipIf_pc (c : Bool) :
    (s.applyEffect (skipIf c)).pc = if c then s.pc + 4 else s.pc + 2 := by cases c <;> rfl
@[simp] theorem State.applyEffect_skipIf_mode (c : Bool) : (s.applyEffect (skipIf c)).mode = s.mode := by
  cases c <;> rfl

/-! ### Faults -/

@[simp] theorem State.raise_V (k : FaultKind) (w : Option Word) (p : Word) : (s.raise k w p).V = s.V := by unfold State.raise; split <;> rfl
@[simp] theorem State.raise_I (k : FaultKind) (w : Option Word) (p : Word) : (s.raise k w p).I = s.I := by unfold State.raise; split <;> rfl
@[simp] theorem State.raise_pc (k : FaultKind) (w : Option Word) (p : Word) : (s.raise k w p).pc = s.pc := by unfold State.raise; split <;> rfl
@[simp] theorem State.raise_stack (k : FaultKind) (w : Option Word) (p : Word) : (s.raise k w p).stack = s.stack := by unfold State.raise; split <;> rfl
@[simp] theorem State.raise_SP (k : FaultKind) (w : Option Word) (p : Word) : (s.raise k w p).SP = s.SP := by unfold State.raise; split <;> rfl
@[simp] theorem State.raise_DT (k : FaultKind) (w : Option Word) (p : Word) : (s.raise k w p).DT = s.DT := by unfold State.raise; split <;> rfl
@[simp] theorem State.raise_ST (k : FaultKind) (w : Option Word) (p : Word) : (s.raise k w p).ST = s.ST := by unfold State.raise; split <;> rfl
@[simp] theorem State.raise_key (k : FaultKind) (w : Option Word) (p : Word) : (s.raise k w p).key = s.key := by unfold State.raise; split <;> rfl
@[simp] theorem State.raise_disp (k : FaultKind) (w : Option Word) (p : Word) : (s.raise k w p).disp = s.disp := by unfold State.raise; split <;> rfl
@[simp] theorem State.raise_redraw (k : FaultKind) (w : Option Word) (p : Word) : (s.raise k w p).redraw = s.redraw := by unfold State.raise; split <;> rfl
@[simp] theorem State.raise_mem (k : FaultKind) (w : Option Word) (p : Word) : (s.raise k w p).mem = s.mem := by unfold State.raise; split <;> rfl
@[simp] theorem State.raise_cfg (k : FaultKind) (w : Option Word) (p : Word) : (s.raise k w p).cfg = s.cfg := by unfold State.raise; split <;> rfl
@[simp] theorem State.raise_draws (k : FaultKind) (w : Option Word) (p : Word) : (s.raise k w p).draws = s.draws := by unfold State.raise; split <;> rfl

@[simp] theorem State.raise_mode (k : FaultKind) (w : Option Word) (p : Word) : (s.raise k w p).mode = .faulted := by
  unfold State.raise; split
  · assumption
  · rfl

/-- Raising a fault in a state that is not Faulted (R221). -/
theorem State.raise_of_not_faulted {k : FaultKind} {w : Option Word} {p : Word} (h : s.mode ≠ .faulted) :
    s.raise k w p = { s with mode := .faulted, fault := some ⟨k, w, p⟩ } := by
  unfold State.raise; rw [if_neg h]

/-- The first fault recorded is kept (R221, R226). -/
theorem State.raise_of_faulted {k : FaultKind} {w : Option Word} {p : Word} (h : s.mode = .faulted) :
    s.raise k w p = s := by
  unfold State.raise; rw [if_pos h]

/-! ### Key wait and host transactions -/

@[simp] theorem State.completeWait_V (x : RegIdx) (k : Fin 16) : (s.completeWait x k).V = s.V.set x.toNat (BitVec.ofNat 8 k.val) x.isLt := rfl
@[simp] theorem State.completeWait_I (x : RegIdx) (k : Fin 16) : (s.completeWait x k).I = s.I := rfl
@[simp] theorem State.completeWait_pc (x : RegIdx) (k : Fin 16) : (s.completeWait x k).pc = s.pc + 2 := rfl
@[simp] theorem State.completeWait_stack (x : RegIdx) (k : Fin 16) : (s.completeWait x k).stack = s.stack := rfl
@[simp] theorem State.completeWait_SP (x : RegIdx) (k : Fin 16) : (s.completeWait x k).SP = s.SP := rfl
@[simp] theorem State.completeWait_DT (x : RegIdx) (k : Fin 16) : (s.completeWait x k).DT = s.DT := rfl
@[simp] theorem State.completeWait_ST (x : RegIdx) (k : Fin 16) : (s.completeWait x k).ST = s.ST := rfl
@[simp] theorem State.completeWait_key (x : RegIdx) (k : Fin 16) : (s.completeWait x k).key = s.key := rfl
@[simp] theorem State.completeWait_disp (x : RegIdx) (k : Fin 16) : (s.completeWait x k).disp = s.disp := rfl
@[simp] theorem State.completeWait_redraw (x : RegIdx) (k : Fin 16) : (s.completeWait x k).redraw = s.redraw := rfl
@[simp] theorem State.completeWait_mode (x : RegIdx) (k : Fin 16) : (s.completeWait x k).mode = .running := rfl
@[simp] theorem State.completeWait_fault (x : RegIdx) (k : Fin 16) : (s.completeWait x k).fault = s.fault := rfl
@[simp] theorem State.completeWait_mem (x : RegIdx) (k : Fin 16) : (s.completeWait x k).mem = s.mem := rfl
@[simp] theorem State.completeWait_cfg (x : RegIdx) (k : Fin 16) : (s.completeWait x k).cfg = s.cfg := rfl
@[simp] theorem State.completeWait_draws (x : RegIdx) (k : Fin 16) : (s.completeWait x k).draws = s.draws + 1 := rfl

@[simp] theorem State.tickTimers_V : (s.tickTimers).V = s.V := rfl
@[simp] theorem State.tickTimers_I : (s.tickTimers).I = s.I := rfl
@[simp] theorem State.tickTimers_pc : (s.tickTimers).pc = s.pc := rfl
@[simp] theorem State.tickTimers_stack : (s.tickTimers).stack = s.stack := rfl
@[simp] theorem State.tickTimers_SP : (s.tickTimers).SP = s.SP := rfl
@[simp] theorem State.tickTimers_DT : (s.tickTimers).DT = timerTick s.DT := rfl
@[simp] theorem State.tickTimers_ST : (s.tickTimers).ST = timerTick s.ST := rfl
@[simp] theorem State.tickTimers_key : (s.tickTimers).key = s.key := rfl
@[simp] theorem State.tickTimers_disp : (s.tickTimers).disp = s.disp := rfl
@[simp] theorem State.tickTimers_redraw : (s.tickTimers).redraw = s.redraw := rfl
@[simp] theorem State.tickTimers_mode : (s.tickTimers).mode = s.mode := rfl
@[simp] theorem State.tickTimers_fault : (s.tickTimers).fault = s.fault := rfl
@[simp] theorem State.tickTimers_mem : (s.tickTimers).mem = s.mem := rfl
@[simp] theorem State.tickTimers_cfg : (s.tickTimers).cfg = s.cfg := rfl
@[simp] theorem State.tickTimers_draws : (s.tickTimers).draws = s.draws := rfl

@[simp] theorem State.setKey_V (k : Fin 16) (p : Bool) : (s.setKey k p).V = s.V := rfl
@[simp] theorem State.setKey_I (k : Fin 16) (p : Bool) : (s.setKey k p).I = s.I := rfl
@[simp] theorem State.setKey_pc (k : Fin 16) (p : Bool) : (s.setKey k p).pc = s.pc := rfl
@[simp] theorem State.setKey_stack (k : Fin 16) (p : Bool) : (s.setKey k p).stack = s.stack := rfl
@[simp] theorem State.setKey_SP (k : Fin 16) (p : Bool) : (s.setKey k p).SP = s.SP := rfl
@[simp] theorem State.setKey_DT (k : Fin 16) (p : Bool) : (s.setKey k p).DT = s.DT := rfl
@[simp] theorem State.setKey_ST (k : Fin 16) (p : Bool) : (s.setKey k p).ST = s.ST := rfl
@[simp] theorem State.setKey_key (k : Fin 16) (p : Bool) : (s.setKey k p).key = s.key.set k.val p k.isLt := rfl
@[simp] theorem State.setKey_disp (k : Fin 16) (p : Bool) : (s.setKey k p).disp = s.disp := rfl
@[simp] theorem State.setKey_redraw (k : Fin 16) (p : Bool) : (s.setKey k p).redraw = s.redraw := rfl
@[simp] theorem State.setKey_mode (k : Fin 16) (p : Bool) : (s.setKey k p).mode = s.mode := rfl
@[simp] theorem State.setKey_fault (k : Fin 16) (p : Bool) : (s.setKey k p).fault = s.fault := rfl
@[simp] theorem State.setKey_mem (k : Fin 16) (p : Bool) : (s.setKey k p).mem = s.mem := rfl
@[simp] theorem State.setKey_cfg (k : Fin 16) (p : Bool) : (s.setKey k p).cfg = s.cfg := rfl
@[simp] theorem State.setKey_draws (k : Fin 16) (p : Bool) : (s.setKey k p).draws = s.draws := rfl

@[simp] theorem State.ackRedraw_V : (s.ackRedraw).V = s.V := rfl
@[simp] theorem State.ackRedraw_I : (s.ackRedraw).I = s.I := rfl
@[simp] theorem State.ackRedraw_pc : (s.ackRedraw).pc = s.pc := rfl
@[simp] theorem State.ackRedraw_stack : (s.ackRedraw).stack = s.stack := rfl
@[simp] theorem State.ackRedraw_SP : (s.ackRedraw).SP = s.SP := rfl
@[simp] theorem State.ackRedraw_DT : (s.ackRedraw).DT = s.DT := rfl
@[simp] theorem State.ackRedraw_ST : (s.ackRedraw).ST = s.ST := rfl
@[simp] theorem State.ackRedraw_key : (s.ackRedraw).key = s.key := rfl
@[simp] theorem State.ackRedraw_disp : (s.ackRedraw).disp = s.disp := rfl
@[simp] theorem State.ackRedraw_redraw : (s.ackRedraw).redraw = false := rfl
@[simp] theorem State.ackRedraw_mode : (s.ackRedraw).mode = s.mode := rfl
@[simp] theorem State.ackRedraw_fault : (s.ackRedraw).fault = s.fault := rfl
@[simp] theorem State.ackRedraw_mem : (s.ackRedraw).mem = s.mem := rfl
@[simp] theorem State.ackRedraw_cfg : (s.ackRedraw).cfg = s.cfg := rfl
@[simp] theorem State.ackRedraw_draws : (s.ackRedraw).draws = s.draws := rfl

@[simp] theorem State.resetNow_V : (s.resetNow).V = State.reset.V := rfl
@[simp] theorem State.resetNow_I : (s.resetNow).I = State.reset.I := rfl
@[simp] theorem State.resetNow_pc : (s.resetNow).pc = State.reset.pc := rfl
@[simp] theorem State.resetNow_stack : (s.resetNow).stack = State.reset.stack := rfl
@[simp] theorem State.resetNow_SP : (s.resetNow).SP = State.reset.SP := rfl
@[simp] theorem State.resetNow_DT : (s.resetNow).DT = State.reset.DT := rfl
@[simp] theorem State.resetNow_ST : (s.resetNow).ST = State.reset.ST := rfl
@[simp] theorem State.resetNow_key : (s.resetNow).key = s.key := rfl
@[simp] theorem State.resetNow_disp : (s.resetNow).disp = State.reset.disp := rfl
@[simp] theorem State.resetNow_redraw : (s.resetNow).redraw = State.reset.redraw := rfl
@[simp] theorem State.resetNow_mode : (s.resetNow).mode = State.reset.mode := rfl
@[simp] theorem State.resetNow_fault : (s.resetNow).fault = State.reset.fault := rfl
@[simp] theorem State.resetNow_mem : (s.resetNow).mem = State.reset.mem := rfl
@[simp] theorem State.resetNow_cfg : (s.resetNow).cfg = s.cfg := rfl
@[simp] theorem State.resetNow_draws : (s.resetNow).draws = s.draws := rfl

end Sys2Proof.Machine
end

