-- ==== Sys2Proof/Laws/Display.lean ====
section
/-! SUPPORT. The display: one toggle, and the whole of a sprite's drawing (R191) as the set of pixels it covers. -/

namespace Sys2Proof.Machine

@[simp] theorem Display.pixel_clear (x : Fin 64) (y : Fin 32) : Display.pixel Display.clear x y = false := by
  simp [Display.pixel, Display.clear]

theorem Display.pixel_toggle (d : Display) (x x' : Fin 64) (y y' : Fin 32) :
    Display.pixel (Display.toggle d x y) x' y' = (Display.pixel d x' y' ^^ decide (x = x' ∧ y = y')) := by
  unfold Display.pixel Display.toggle
  rw [Vector.getElem_set]
  by_cases hy : y = y'
  · subst hy
    by_cases hx : x = x'
    · subst hx; simp
    · have hv : x'.val ≠ x.val := fun e => hx (Fin.ext e.symm)
      have hz : (!decide (x' < x) && decide (x'.val - x.val = 0)) = false := by
        rw [Bool.and_eq_false_iff]
        by_cases h : x' < x
        · exact .inl (by simp [h])
        · exact .inr (by rw [Fin.lt_def] at h; simp; omega)
      simp [hx, hz]
  · rw [if_neg (fun e => hy (Fin.ext e))]
    simp [hy]

/-- One set sprite bit of R191: note a collision, then toggle. -/
def plot (acc : Display × Bool) (p : Fin 64 × Fin 32) : Display × Bool :=
  (Display.toggle acc.1 p.1 p.2, acc.2 || Display.pixel acc.1 p.1 p.2)

/-- Plotting distinct pixels toggles exactly those, and collides exactly when one of them was set. -/
theorem plot_foldl (ps : List (Fin 64 × Fin 32)) (hn : ps.Nodup) (acc : Display × Bool) :
    (∀ x y, Display.pixel (ps.foldl plot acc).1 x y = (Display.pixel acc.1 x y ^^ decide ((x, y) ∈ ps))) ∧
    ((ps.foldl plot acc).2 = true ↔ acc.2 = true ∨ ∃ p ∈ ps, Display.pixel acc.1 p.1 p.2 = true) := by
  induction ps generalizing acc with
  | nil => simp
  | cons p ps ih =>
    obtain ⟨hp, hn⟩ := List.nodup_cons.1 hn
    obtain ⟨h1, h2⟩ := ih hn (plot acc p)
    constructor
    · intro x y
      rw [List.foldl_cons, h1, plot, Display.pixel_toggle]
      by_cases hxy : (x, y) = p
      · subst hxy; simp [hp]
      · have : ¬(p.1 = x ∧ p.2 = y) := fun ⟨a, b⟩ => hxy (by rw [← a, ← b])
        simp [hxy, this]
    · rw [List.foldl_cons, h2]
      have hq : ∀ q ∈ ps, Display.pixel (plot acc p).1 q.1 q.2 = Display.pixel acc.1 q.1 q.2 := by
        intro q hq
        rw [plot, Display.pixel_toggle]
        have : ¬(p.1 = q.1 ∧ p.2 = q.2) := fun ⟨a, b⟩ => hp (by rwa [Prod.ext a b])
        simp [this]
      constructor
      · rintro (h | ⟨q, hm, h⟩)
        · simp only [plot, Bool.or_eq_true] at h
          rcases h with h | h
          · exact .inl h
          · exact .inr ⟨p, by simp, h⟩
        · exact .inr ⟨q, by simp [hm], by rwa [hq q hm] at h⟩
      · rintro (h | ⟨q, hm, h⟩)
        · exact .inl (by simp [plot, h])
        · rcases List.mem_cons.1 hm with rfl | hm
          · exact .inl (by simp [plot, h])
          · exact .inr ⟨q, hm, by rwa [hq q hm]⟩

/-- The pixels of one sprite row, left to right. -/
def rowPixels (cx : Byte) (y : Fin 32) (b : Byte) : List (Fin 64 × Fin 32) :=
  ((List.range 8).filter fun c => spriteBit b c).map fun c => (spriteColumn cx c, y)

/-- The pixels of sprite rows `r, r+1, ..`. -/
def spritePixels (cx cy : Byte) : Nat → List Byte → List (Fin 64 × Fin 32)
  | _, [] => []
  | r, b :: bs => rowPixels cx (spriteRow cy r) b ++ spritePixels cx cy (r + 1) bs

theorem drawRow_eq_foldl (cx : Byte) (y : Fin 32) (b : Byte) (acc : Display × Bool) :
    drawRow cx y b acc = (rowPixels cx y b).foldl plot acc := by
  unfold drawRow rowPixels
  rw [List.foldl_map, List.foldl_filter]
  rfl

theorem drawRows_eq_foldl (cx cy : Byte) (r : Nat) (bs : List Byte) (acc : Display × Bool) :
    drawRows cx cy r bs acc = (spritePixels cx cy r bs).foldl plot acc := by
  induction bs generalizing r acc with
  | nil => rfl
  | cons b bs ih => rw [drawRows, spritePixels, List.foldl_append, ih, drawRow_eq_foldl]

theorem mem_rowPixels {cx : Byte} {y : Fin 32} {b : Byte} {p : Fin 64 × Fin 32} :
    p ∈ rowPixels cx y b ↔ ∃ c < 8, spriteBit b c = true ∧ p = (spriteColumn cx c, y) := by
  simp only [rowPixels, List.mem_map, List.mem_filter, List.mem_range]
  constructor
  · rintro ⟨c, ⟨hc, hb⟩, rfl⟩; exact ⟨c, hc, hb, rfl⟩
  · rintro ⟨c, hc, hb, rfl⟩; exact ⟨c, ⟨hc, hb⟩, rfl⟩

theorem mem_spritePixels {cx cy : Byte} {r : Nat} {bs : List Byte} {p : Fin 64 × Fin 32} :
    p ∈ spritePixels cx cy r bs ↔
      ∃ k b, bs[k]? = some b ∧ ∃ c < 8, spriteBit b c = true ∧ p = (spriteColumn cx c, spriteRow cy (r + k)) := by
  induction bs generalizing r with
  | nil => simp [spritePixels]
  | cons b bs ih =>
    rw [spritePixels, List.mem_append, mem_rowPixels, ih]
    constructor
    · rintro (⟨c, hc, hb, hp⟩ | ⟨k, b', hk, c, hc, hb, hp⟩)
      · exact ⟨0, b, rfl, c, hc, hb, hp⟩
      · exact ⟨k + 1, b', hk, c, hc, hb, by rw [hp, show r + (k + 1) = r + 1 + k by omega]⟩
    · rintro ⟨k, b', hk, c, hc, hb, hp⟩
      cases k with
      | zero =>
        simp only [List.getElem?_cons_zero, Option.some.injEq] at hk
        exact .inl ⟨c, hc, by rw [hk]; exact hb, hp⟩
      | succ k => exact .inr ⟨k, b', hk, c, hc, hb, by rw [hp, show r + (k + 1) = r + 1 + k by omega]⟩

theorem nodup_rowPixels (cx : Byte) (y : Fin 32) (b : Byte) : (rowPixels cx y b).Nodup := by
  unfold rowPixels
  refine List.Nodup.map_on ?_ (List.nodup_range.filter _)
  intro c hc c' hc' h
  simp only [List.mem_filter, List.mem_range] at hc hc'
  have := congrArg (fun p : Fin 64 × Fin 32 => p.1.val) h
  simp only [spriteColumn] at this
  omega

/-- No pixel is visited twice by a sprite of at most 32 rows (R191). -/
theorem nodup_spritePixels (cx cy : Byte) (r : Nat) (bs : List Byte) (hl : bs.length ≤ 32) :
    (spritePixels cx cy r bs).Nodup := by
  induction bs generalizing r with
  | nil => exact List.nodup_nil
  | cons b bs ih =>
    simp only [List.length_cons] at hl
    rw [spritePixels]
    refine List.Nodup.append (nodup_rowPixels _ _ _) (ih (r + 1) (by omega)) ?_
    intro p hp hq
    obtain ⟨c, _, _, rfl⟩ := mem_rowPixels.1 hp
    obtain ⟨k, b', hk, c', _, _, h⟩ := mem_spritePixels.1 hq
    have hk' : k < bs.length := by
      rcases Nat.lt_or_ge k bs.length with h | h
      · exact h
      · rw [List.getElem?_eq_none h] at hk; cases hk
    have := congrArg (fun p : Fin 64 × Fin 32 => p.2.val) h
    simp only [spriteRow] at this
    omega

theorem mem_spritePixels_iff_covers {cx cy : Byte} {bs : List Byte} {x : Fin 64} {y : Fin 32} :
    (x, y) ∈ spritePixels cx cy 0 bs ↔ SpriteCovers bs cx cy x y := by
  rw [mem_spritePixels]
  constructor
  · rintro ⟨k, b, hk, c, hc, hb, hp⟩
    simp only [Prod.mk.injEq, Fin.ext_iff, spriteColumn, spriteRow, Nat.zero_add] at hp
    exact ⟨k, c, b, hk, hc, hb, hp.1, hp.2⟩
  · rintro ⟨k, c, b, hk, hc, hb, hx, hy⟩
    refine ⟨k, b, hk, c, hc, hb, ?_⟩
    simp only [Prod.mk.injEq, Fin.ext_iff, spriteColumn, spriteRow, Nat.zero_add]
    exact ⟨hx, hy⟩

/-- Drawing a sprite toggles the pixels it covers and no other (R191). -/
theorem drawRows_pixel (cx cy : Byte) (bs : List Byte) (hl : bs.length ≤ 32) (acc : Display × Bool) (x : Fin 64)
    (y : Fin 32) :
    (SpriteCovers bs cx cy x y → Display.pixel (drawRows cx cy 0 bs acc).1 x y = !Display.pixel acc.1 x y) ∧
    (¬SpriteCovers bs cx cy x y → Display.pixel (drawRows cx cy 0 bs acc).1 x y = Display.pixel acc.1 x y) := by
  rw [drawRows_eq_foldl, (plot_foldl _ (nodup_spritePixels cx cy 0 bs hl) acc).1, ← mem_spritePixels_iff_covers]
  constructor <;> intro h <;> simp [h]

/-- Drawing a sprite collides exactly when it covers a set pixel (R191). -/
theorem drawRows_collide (cx cy : Byte) (bs : List Byte) (hl : bs.length ≤ 32) (acc : Display × Bool) :
    (drawRows cx cy 0 bs acc).2 = true ↔
      acc.2 = true ∨ ∃ x y, SpriteCovers bs cx cy x y ∧ Display.pixel acc.1 x y = true := by
  rw [drawRows_eq_foldl, (plot_foldl _ (nodup_spritePixels cx cy 0 bs hl) acc).2]
  constructor
  · rintro (h | ⟨⟨x, y⟩, hm, h⟩)
    · exact .inl h
    · exact .inr ⟨x, y, mem_spritePixels_iff_covers.1 hm, h⟩
  · rintro (h | ⟨x, y, hm, h⟩)
    · exact .inl h
    · exact .inr ⟨(x, y), mem_spritePixels_iff_covers.2 hm, h⟩

end Sys2Proof.Machine
end

