-- ==== Sys2Proof/Laws/Encoding.lean ====
section
/-! SUPPORT. The fields of a word of each format, and a word put together again from its fields (R71, R73). -/

namespace Sys2Proof

variable (op : Nibble) (nnn : Addr) (x y : RegIdx) (n : Nibble) (kk : Byte)

@[simp] theorem opField_wordNNN : opField (wordNNN op nnn) = op := by
  unfold opField wordNNN
  ext i hi
  rw [BitVec.getElem_extractLsb', BitVec.getLsbD_append, if_neg (by omega)]
  simp [hi]

@[simp] theorem nnnField_wordNNN : nnnField (wordNNN op nnn) = nnn := by
  unfold nnnField wordNNN
  ext i hi
  rw [BitVec.getElem_extractLsb', BitVec.getLsbD_append, if_pos (by omega)]
  simp [hi]

@[simp] theorem opField_wordXKK : opField (wordXKK op x kk) = op := by
  unfold opField wordXKK
  ext i hi
  rw [BitVec.getElem_extractLsb', BitVec.getLsbD_append, if_neg (by omega), BitVec.getLsbD_append, if_neg (by omega)]
  rw [← BitVec.getLsbD_eq_getElem]
  congr 1; omega

@[simp] theorem xField_wordXKK : xField (wordXKK op x kk) = x := by
  unfold xField wordXKK
  ext i hi
  rw [BitVec.getElem_extractLsb', BitVec.getLsbD_append, if_neg (by omega), BitVec.getLsbD_append, if_pos (by omega)]
  rw [← BitVec.getLsbD_eq_getElem]
  congr 1; omega

@[simp] theorem kkField_wordXKK : kkField (wordXKK op x kk) = kk := by
  unfold kkField wordXKK
  ext i hi
  rw [BitVec.getElem_extractLsb', BitVec.getLsbD_append, if_pos (by omega)]
  rw [← BitVec.getLsbD_eq_getElem]
  congr 1; omega

@[simp] theorem opField_wordXYN : opField (wordXYN op x y n) = op := by
  unfold opField wordXYN
  ext i hi
  rw [BitVec.getElem_extractLsb', BitVec.getLsbD_append, if_neg (by omega), BitVec.getLsbD_append, if_neg (by omega),
    BitVec.getLsbD_append, if_neg (by omega)]
  rw [← BitVec.getLsbD_eq_getElem]
  congr 1; omega

@[simp] theorem xField_wordXYN : xField (wordXYN op x y n) = x := by
  unfold xField wordXYN
  ext i hi
  rw [BitVec.getElem_extractLsb', BitVec.getLsbD_append, if_neg (by omega), BitVec.getLsbD_append, if_neg (by omega),
    BitVec.getLsbD_append, if_pos (by omega)]
  rw [← BitVec.getLsbD_eq_getElem]
  congr 1; omega

@[simp] theorem yField_wordXYN : yField (wordXYN op x y n) = y := by
  unfold yField wordXYN
  ext i hi
  rw [BitVec.getElem_extractLsb', BitVec.getLsbD_append, if_neg (by omega), BitVec.getLsbD_append, if_pos (by omega)]
  rw [← BitVec.getLsbD_eq_getElem]
  congr 1; omega

@[simp] theorem nField_wordXYN : nField (wordXYN op x y n) = n := by
  unfold nField wordXYN
  ext i hi
  rw [BitVec.getElem_extractLsb', BitVec.getLsbD_append, if_pos (by omega)]
  rw [← BitVec.getLsbD_eq_getElem]
  congr 1; omega

/-- A word is its four nibbles (R71). -/
theorem wordXYN_fields (w : Word) : wordXYN (opField w) (xField w) (yField w) (nField w) = w := by
  unfold wordXYN opField xField yField nField
  apply BitVec.eq_of_getLsbD_eq
  intro i hi
  simp only [BitVec.getLsbD_append, BitVec.getLsbD_extractLsb']
  split
  · simp_all
  · split
    · rw [show 4 + (i - 4) = i by omega]; simp; omega
    · split
      · rw [show 8 + (i - 4 - 4) = i by omega]; simp; omega
      · rw [show 12 + (i - 4 - 4 - 4) = i by omega]; simp; omega

/-- A word is its top nibble, `x` and `kk` (R71). -/
theorem wordXKK_fields (w : Word) : wordXKK (opField w) (xField w) (kkField w) = w := by
  unfold wordXKK opField xField kkField
  apply BitVec.eq_of_getLsbD_eq
  intro i hi
  simp only [BitVec.getLsbD_append, BitVec.getLsbD_extractLsb']
  split
  · simp_all
  · split
    · rw [show 8 + (i - 8) = i by omega]; simp; omega
    · rw [show 12 + (i - 8 - 4) = i by omega]; simp; omega

/-- A word is its top nibble and `nnn` (R71). -/
theorem wordNNN_fields (w : Word) : wordNNN (opField w) (nnnField w) = w := by
  unfold wordNNN opField nnnField
  apply BitVec.eq_of_getLsbD_eq
  intro i hi
  simp only [BitVec.getLsbD_append, BitVec.getLsbD_extractLsb']
  split
  · simp_all
  · rw [show 12 + (i - 12) = i by omega]; simp; omega

/-- The two bytes of a word, high byte first, are the word (R52). -/
@[simp] theorem joinBytes_bytes (w : Word) : joinBytes (highByte w) (lowByte w) = w := by
  unfold joinBytes highByte lowByte
  apply BitVec.eq_of_getLsbD_eq
  intro i hi
  simp only [BitVec.getLsbD_append, BitVec.getLsbD_extractLsb']
  split
  · simp_all
  · rw [show 8 + (i - 8) = i by omega]; simp; omega

/-- A format word masked by a format word of masks is masked field by field. -/
theorem wordNNN_and (op' : Nibble) (nnn' : Addr) :
    wordNNN op nnn &&& wordNNN op' nnn' = wordNNN (op &&& op') (nnn &&& nnn') := BitVec.and_append
theorem wordXKK_and (op' : Nibble) (x' : RegIdx) (kk' : Byte) :
    wordXKK op x kk &&& wordXKK op' x' kk' = wordXKK (op &&& op') (x &&& x') (kk &&& kk') := by
  unfold wordXKK; rw [BitVec.and_append, BitVec.and_append]
theorem wordXYN_and (op' : Nibble) (x' y' : RegIdx) (n' : Nibble) :
    wordXYN op x y n &&& wordXYN op' x' y' n' = wordXYN (op &&& op') (x &&& x') (y &&& y') (n &&& n') := by
  unfold wordXYN; rw [BitVec.and_append, BitVec.and_append, BitVec.and_append]

/-! ### Fields of a masked word -/

theorem opField_and (w m : Word) : opField (w &&& m) = opField w &&& opField m := by
  unfold opField; ext i hi; simp
theorem nField_and (w m : Word) : nField (w &&& m) = nField w &&& nField m := by
  unfold nField; ext i hi; simp
theorem kkField_and (w m : Word) : kkField (w &&& m) = kkField w &&& kkField m := by
  unfold kkField; ext i hi; simp

/-! ### The decoder's arms, one equation each -/

/-- The 16 nibbles. -/
theorem nibble_cases (o : Nibble) :
    o = 0x0 ∨ o = 0x1 ∨ o = 0x2 ∨ o = 0x3 ∨ o = 0x4 ∨ o = 0x5 ∨ o = 0x6 ∨ o = 0x7 ∨ o = 0x8 ∨ o = 0x9 ∨ o = 0xA ∨
      o = 0xB ∨ o = 0xC ∨ o = 0xD ∨ o = 0xE ∨ o = 0xF := by revert o; decide

variable (w : Word)

theorem decode_op0 (h : opField w = 0x0) :
    decode w = decodeFamily0 w := by unfold decode; rw [h]; rfl
theorem decode_op1 (h : opField w = 0x1) :
    decode w = .instr (.jp (nnnField w)) := by unfold decode; rw [h]; rfl
theorem decode_op2 (h : opField w = 0x2) :
    decode w = .instr (.call (nnnField w)) := by unfold decode; rw [h]; rfl
theorem decode_op3 (h : opField w = 0x3) :
    decode w = .instr (.seByte (xField w) (kkField w)) := by unfold decode; rw [h]; rfl
theorem decode_op4 (h : opField w = 0x4) :
    decode w = .instr (.sneByte (xField w) (kkField w)) := by unfold decode; rw [h]; rfl
theorem decode_op5 (h : opField w = 0x5) :
    decode w = (if nField w = 0 then .instr (.seReg (xField w) (yField w)) else .unknown w) := by unfold decode; rw [h]; rfl
theorem decode_op6 (h : opField w = 0x6) :
    decode w = .instr (.ldByte (xField w) (kkField w)) := by unfold decode; rw [h]; rfl
theorem decode_op7 (h : opField w = 0x7) :
    decode w = .instr (.addByte (xField w) (kkField w)) := by unfold decode; rw [h]; rfl
theorem decode_op8 (h : opField w = 0x8) :
    decode w = decodeFamily8 w := by unfold decode; rw [h]; rfl
theorem decode_op9 (h : opField w = 0x9) :
    decode w = (if nField w = 0 then .instr (.sneReg (xField w) (yField w)) else .unknown w) := by unfold decode; rw [h]; rfl
theorem decode_opA (h : opField w = 0xA) :
    decode w = .instr (.ldI (nnnField w)) := by unfold decode; rw [h]; rfl
theorem decode_opB (h : opField w = 0xB) :
    decode w = .instr (.jpV0 (nnnField w)) := by unfold decode; rw [h]; rfl
theorem decode_opC (h : opField w = 0xC) :
    decode w = .instr (.rnd (xField w) (kkField w)) := by unfold decode; rw [h]; rfl
theorem decode_opD (h : opField w = 0xD) :
    decode w = .instr (.drw (xField w) (yField w) (nField w)) := by unfold decode; rw [h]; rfl
theorem decode_opE (h : opField w = 0xE) :
    decode w = decodeFamilyE w := by unfold decode; rw [h]; rfl
theorem decode_opF (h : opField w = 0xF) :
    decode w = decodeFamilyF w := by unfold decode; rw [h]; rfl

end Sys2Proof
end

