-- ==== Sys2Proof/Laws/Memory.lean ====
section
/-! SUPPORT. Memory: a read after a write, and every memory operation keeps the canonical form. -/

namespace Sys2Proof.Machine

variable (c : Config)

/-! ### The list of cells -/

theorem Memory.lookup_insert (m : Memory) (a b : Nat) (v : Byte) :
    Memory.lookup (Memory.insert m a v) b = if a = b then some v else Memory.lookup m b := by
  induction m with
  | nil => rfl
  | cons kv m ih =>
    obtain ⟨k, u⟩ := kv
    unfold Memory.insert
    split
    · rfl
    · split
      · next h => subst h; simp only [Memory.lookup]; split <;> rfl
      · simp only [Memory.lookup, ih]; split <;> split <;> simp_all

theorem Memory.lookup_erase (m : Memory) (a b : Nat) :
    Memory.lookup (Memory.erase m a) b = if a = b then none else Memory.lookup m b := by
  induction m with
  | nil => simp [Memory.erase, Memory.lookup]
  | cons kv m ih =>
    obtain ⟨k, u⟩ := kv
    unfold Memory.erase
    split
    · simp only [Memory.lookup, ih]; split <;> simp_all
    · simp only [Memory.lookup, ih]; split <;> split <;> simp_all

theorem Memory.wfFrom_mono (lo lo' : Nat) (m : Memory) (hl : lo' ≤ lo) (h : Memory.wfFrom c lo m = true) :
    Memory.wfFrom c lo' m = true := by
  cases m with
  | nil => rfl
  | cons kv m =>
    simp only [Memory.wfFrom, Bool.and_eq_true, decide_eq_true_eq] at h ⊢
    exact ⟨⟨⟨by omega, h.1.1.2⟩, h.1.2⟩, h.2⟩

theorem Memory.wfFrom_erase (lo : Nat) (m : Memory) (a : Nat) (h : Memory.wfFrom c lo m = true) :
    Memory.wfFrom c lo (Memory.erase m a) = true := by
  induction m generalizing lo with
  | nil => rfl
  | cons kv m ih =>
    obtain ⟨k, u⟩ := kv
    have h' := h
    simp only [Memory.wfFrom, Bool.and_eq_true, decide_eq_true_eq] at h
    unfold Memory.erase
    split
    · exact ih lo (Memory.wfFrom_mono c (k + 1) lo m (by omega) h.2)
    · simp only [Memory.wfFrom, Bool.and_eq_true, decide_eq_true_eq]
      exact ⟨h.1, ih _ h.2⟩

theorem Memory.wfFrom_insert (lo : Nat) (m : Memory) (a : Nat) (v : Byte) (hlo : lo ≤ a) (ha : a < memSize)
    (hv : v ≠ c.resetByte a) (h : Memory.wfFrom c lo m = true) : Memory.wfFrom c lo (Memory.insert m a v) = true := by
  induction m generalizing lo with
  | nil => simp [Memory.insert, Memory.wfFrom, hlo, ha, hv]
  | cons kv m ih =>
    obtain ⟨k, u⟩ := kv
    have h' := h
    simp only [Memory.wfFrom, Bool.and_eq_true, decide_eq_true_eq] at h
    unfold Memory.insert
    split
    · next hak =>
      simp only [Memory.wfFrom, Bool.and_eq_true, decide_eq_true_eq]
      exact ⟨⟨⟨hlo, ha⟩, by simpa using hv⟩, ⟨⟨by omega, h.1.1.2⟩, h.1.2⟩, h.2⟩
    · split
      · next hka =>
        subst hka
        simp only [Memory.wfFrom, Bool.and_eq_true, decide_eq_true_eq]
        exact ⟨⟨⟨hlo, ha⟩, by simpa using hv⟩, h.2⟩
      · simp only [Memory.wfFrom, Bool.and_eq_true, decide_eq_true_eq]
        exact ⟨h.1, ih _ (by omega) h.2⟩

/-- In canonical form no listed byte is the reset content of its address. -/
theorem Memory.lookup_ne_reset (lo : Nat) (m : Memory) (h : Memory.wfFrom c lo m = true) (a : Nat) (v : Byte)
    (hv : Memory.lookup m a = some v) : v ≠ c.resetByte a := by
  induction m generalizing lo with
  | nil => simp [Memory.lookup] at hv
  | cons kv m ih =>
    obtain ⟨k, u⟩ := kv
    simp only [Memory.wfFrom, Bool.and_eq_true, decide_eq_true_eq] at h
    simp only [Memory.lookup] at hv
    split at hv
    · next hk => subst hk; injection hv with hv; subst hv; simpa using h.1.2
    · exact ih _ h.2 hv

/-! ### Reading and writing one byte -/

/-- Reset memory is in canonical form. -/
@[simp] theorem Memory.wf_nil : Memory.wf c [] = true := rfl

/-- A write keeps the canonical form. -/
theorem Memory.wf_write (m : Memory) (a : Addr) (v : Byte) (h : m.wf c = true) : (Memory.write c m a v).wf c = true := by
  unfold Memory.write Memory.wf
  split
  · exact Memory.wfFrom_erase c 0 m _ h
  · next hv => exact Memory.wfFrom_insert c 0 m _ v (by omega) a.isLt hv h

/-- A read gives the byte last written to its address, and a write changes no other byte (R58). -/
theorem Memory.read_write (m : Memory) (a b : Addr) (v : Byte) :
    Memory.read c (Memory.write c m a v) b = if a = b then v else Memory.read c m b := by
  unfold Memory.read Memory.write
  have hab : (a.toNat = b.toNat) ↔ a = b := BitVec.toNat_inj
  split
  · next hv =>
    rw [Memory.lookup_erase]
    split <;> split <;> simp_all
  · rw [Memory.lookup_insert]
    split <;> split <;> simp_all

variable (s : State)

@[simp] theorem State.writeByte_memWf (a : Addr) (v : Byte) (h : s.mem.wf s.cfg = true) :
    (s.writeByte a v).mem.wf s.cfg = true := Memory.wf_write s.cfg s.mem a v h

theorem State.readByte_writeByte (a b : Addr) (v : Byte) :
    (s.writeByte a v).readByte b = if a = b then v else s.readByte b := Memory.read_write s.cfg s.mem a b v

/-- Equal memory and parameters read equal. -/
theorem State.readByte_congr {s t : State} (hm : t.mem = s.mem) (hc : t.cfg = s.cfg) (a : Addr) :
    t.readByte a = s.readByte a := by unfold State.readByte; rw [hm, hc]

/-! ### Several bytes -/

/-- Storing bytes keeps the canonical form. -/
@[simp] theorem State.writeBytes_memWf (a : Nat) (bs : List Byte) (h : s.mem.wf s.cfg = true) :
    (s.writeBytes a bs).mem.wf s.cfg = true := by
  induction bs generalizing s a with
  | nil => exact h
  | cons b bs ih =>
    have := ih (s.writeByte (addrOf a) b) (a + 1) (State.writeByte_memWf s _ _ h)
    simpa [State.writeBytes] using this

theorem addrOf_toNat (a : Nat) (h : a < 4096) : (addrOf a).toNat = a := by
  simp [addrOf, BitVec.toNat_ofNat, Nat.mod_eq_of_lt h]

/-- Every byte of a store that stays inside the address space is read back, and no other byte changes. -/
theorem State.readByte_writeBytes (a : Nat) (bs : List Byte) (hr : a + bs.length ≤ 4096) (b : Addr) :
    (s.writeBytes a bs).readByte b = ((if a ≤ b.toNat then bs[b.toNat - a]? else none).getD (s.readByte b)) := by
  induction bs generalizing s a with
  | nil => simp [State.writeBytes]
  | cons v bs ih =>
    have hlen : a + (bs.length + 1) ≤ 4096 := hr
    have haddr : addrOf a = b ↔ a = b.toNat := by
      rw [← BitVec.toNat_inj, addrOf_toNat a (by omega)]
    rw [State.writeBytes, ih _ (a + 1) (by omega), State.readByte_writeByte]
    simp only [haddr]
    by_cases h1 : a + 1 ≤ b.toNat
    · have h2 : b.toNat - a = (b.toNat - (a + 1)) + 1 := by omega
      rw [if_pos h1, if_neg (show ¬a = b.toNat by omega), if_pos (show a ≤ b.toNat by omega), h2,
        List.getElem?_cons_succ]
    · rw [if_neg h1]
      by_cases h2 : a = b.toNat
      · rw [if_pos h2, if_pos (show a ≤ b.toNat by omega), h2]; simp
      · rw [if_neg h2, if_neg (show ¬a ≤ b.toNat by omega)]

/-- No byte outside the stored ones changes. -/
theorem State.writeBytes_bytesKept (a : Nat) (bs : List Byte) (hr : a + bs.length ≤ 4096) (b : Addr)
    (hb : b.toNat < a ∨ a + bs.length ≤ b.toNat) : (s.writeBytes a bs).readByte b = s.readByte b := by
  rw [State.readByte_writeBytes s a bs hr]
  split
  · rw [List.getElem?_eq_none (by omega)]; rfl
  · rfl

@[simp] theorem State.readBytes_length (a n : Nat) : (s.readBytes a n).length = n := by simp [State.readBytes]

theorem State.readBytes_getElem? (a n k : Nat) :
    (s.readBytes a n)[k]? = if k < n then some (s.readByte (addrOf (a + k))) else none := by
  simp only [State.readBytes, List.getElem?_map]
  by_cases h : k < n
  · simp [h]
  · simp [h]

end Sys2Proof.Machine
end

