-- ==== Sys2Proof/Laws/Registers.lean ====
section
/-! SUPPORT. Registers: a read after a write, for one register, a result with its flag, and a list of registers. -/

namespace Sys2Proof.Machine

variable (s : State)

theorem State.readReg_writeReg (x y : RegIdx) (v : Byte) :
    (s.writeReg x v).readReg y = if x = y then v else s.readReg y := by
  unfold State.readReg State.writeReg
  rw [Vector.getElem_set]
  exact if_congr BitVec.toNat_inj rfl rfl

@[simp] theorem State.readReg_writeReg_self (x : RegIdx) (v : Byte) : (s.writeReg x v).readReg x = v := by
  rw [State.readReg_writeReg, if_pos rfl]

@[simp] theorem State.readReg_writeReg_ne {x y : RegIdx} (v : Byte) (h : x ≠ y) :
    (s.writeReg x v).readReg y = s.readReg y := by rw [State.readReg_writeReg, if_neg h]

/-- Equal register files read equal. -/
theorem State.readReg_congr {s t : State} (h : t.V = s.V) (x : RegIdx) : t.readReg x = s.readReg x := by
  unfold State.readReg; simp only [h]

@[simp] theorem State.readReg_applyEffect (e : Effect) (x : RegIdx) : (s.applyEffect e).readReg x = s.readReg x :=
  State.readReg_congr (by simp) x

@[simp] theorem State.readReg_writeI (v : Word) (x : RegIdx) : (s.writeI v).readReg x = s.readReg x := rfl

@[simp] theorem State.readReg_writeBytes (a : Nat) (bs : List Byte) (x : RegIdx) :
    (s.writeBytes a bs).readReg x = s.readReg x := State.readReg_congr (by simp) x

/-- The flag is written after the result, so it is what VF holds (R141). -/
@[simp] theorem State.readReg_writeResultFlag_VF (x : RegIdx) (r : Byte) (f : Bool) :
    (s.writeResultFlag x r f).readReg VF = flagByte f := by simp [State.writeResultFlag]

theorem State.readReg_writeResultFlag (x y : RegIdx) (r : Byte) (f : Bool) (hy : y ≠ VF) :
    (s.writeResultFlag x r f).readReg y = if x = y then r else s.readReg y := by
  rw [State.writeResultFlag, State.readReg_writeReg_ne _ _ (Ne.symm hy), State.readReg_writeReg]

/-- A list of registers written from index `k`: each gets its byte, and no other register changes. -/
theorem State.readReg_writeRegs (k : Nat) (bs : List Byte) (hr : k + bs.length ≤ 16) (x : RegIdx) :
    (s.writeRegs k bs).readReg x = ((if k ≤ x.toNat then bs[x.toNat - k]? else none).getD (s.readReg x)) := by
  induction bs generalizing s k with
  | nil => simp [State.writeRegs]
  | cons v bs ih =>
    have hlen : k + (bs.length + 1) ≤ 16 := hr
    have hk : (BitVec.ofNat 4 k : RegIdx) = x ↔ k = x.toNat := by
      rw [← BitVec.toNat_inj, BitVec.toNat_ofNat, Nat.mod_eq_of_lt (by omega)]
    rw [State.writeRegs, ih _ (k + 1) (by omega), State.readReg_writeReg]
    simp only [hk]
    by_cases h1 : k + 1 ≤ x.toNat
    · have h2 : x.toNat - k = (x.toNat - (k + 1)) + 1 := by omega
      rw [if_pos h1, if_neg (show ¬k = x.toNat by omega), if_pos (show k ≤ x.toNat by omega), h2,
        List.getElem?_cons_succ]
    · rw [if_neg h1]
      by_cases h2 : k = x.toNat
      · rw [if_pos h2, if_pos (show k ≤ x.toNat by omega), h2]; simp
      · rw [if_neg h2, if_neg (show ¬k ≤ x.toNat by omega)]

@[simp] theorem State.regList_length (x : RegIdx) : (s.regList x).length = x.toNat + 1 := by
  simp [State.regList, regCount]

theorem State.regList_getElem? (x : RegIdx) (k : Nat) :
    (s.regList x)[k]? = if k ≤ x.toNat then some (s.readReg (BitVec.ofNat 4 k)) else none := by
  simp only [State.regList, regCount, List.getElem?_map]
  by_cases h : k ≤ x.toNat
  · simp [h]
  · simp [h]

end Sys2Proof.Machine
end

