-- ==== Sys2Proof/Laws/Ops.lean ====
section
/-! SUPPORT. The stack, the range check, the key choice and the fault of an instruction: what each can do, said once. -/

namespace Sys2Proof.Machine

variable (s : State)

/-! ### Stack -/

/-- A push succeeds exactly below depth 16; it writes the next entry and the depth, nothing else (R27). -/
theorem State.push_eq_some {v : Word} {t : State} :
    s.push v = some t ↔ ∃ h : s.SP.val < 16,
      t = { s with stack := s.stack.set s.SP.val v h, SP := ⟨s.SP.val + 1, by omega⟩ } := by
  unfold State.push
  split
  · next h => exact ⟨fun e => ⟨h, (Option.some.inj e).symm⟩, fun ⟨_, e⟩ => by rw [e]⟩
  · next h => exact ⟨(nomatch ·), fun ⟨h', _⟩ => absurd h' h⟩

theorem State.push_eq_none {v : Word} : s.push v = none ↔ s.SP.val = 16 := by
  unfold State.push
  split
  · next h => simp; omega
  · next h => simp; omega

/-- A pop succeeds exactly above depth 0; it answers the top entry and writes the depth, nothing else (R27). -/
theorem State.pop_eq_some {v : Word} {t : State} :
    s.pop = some (v, t) ↔ ∃ _ : 0 < s.SP.val,
      v = s.stack[s.SP.val - 1]'(by omega) ∧ t = { s with SP := ⟨s.SP.val - 1, by omega⟩ } := by
  unfold State.pop
  split
  · next h =>
    constructor
    · intro e
      have e := Option.some.inj e
      exact ⟨h, (congrArg Prod.fst e).symm, (congrArg Prod.snd e).symm⟩
    · rintro ⟨_, rfl, rfl⟩; rfl
  · next h => exact ⟨(nomatch ·), fun ⟨h', _⟩ => absurd h' h⟩

theorem State.pop_eq_none : s.pop = none ↔ s.SP.val = 0 := by
  unfold State.pop
  split
  · next h => simp; omega
  · next h => simp; omega

/-! ### Range check and fault of an instruction -/

theorem inRange_iff {a n : Nat} : inRange a n = true ↔ n = 0 ∨ a + n ≤ 4096 := by
  simp only [inRange, Bool.or_eq_true, decide_eq_true_eq]; omega

theorem State.checkRange_in {a n : Nat} {i : Instr} {body : StepResult} (h : n = 0 ∨ a + n ≤ 4096) :
    s.checkRange a n i body = body := by
  unfold State.checkRange; rw [if_pos (inRange_iff.2 h)]

theorem State.checkRange_out {a n : Nat} {i : Instr} {body : StepResult} (hn : n ≠ 0) (h : 4096 < a + n) :
    s.checkRange a n i body = s.raiseBy .outOfBoundsMemoryAccess i := by
  unfold State.checkRange
  rw [if_neg]
  rw [inRange_iff]
  omega

/-- The fault an instruction raises in a state that is not Faulted (R220, R221). -/
theorem State.raiseBy_eq {k : FaultKind} {i : Instr} (h : s.mode ≠ .faulted) :
    s.raiseBy k i = .next { s with mode := .faulted, fault := some ⟨k, some (encode i), s.pc⟩ } := by
  unfold State.raiseBy; rw [State.raise_of_not_faulted s h]

/-! ### Keys -/

theorem State.mem_pressedKeys (k : Fin 16) : k ∈ s.pressedKeys ↔ s.readKey k = true := by
  simp [State.pressedKeys]

/-- A chosen key is one of the set. -/
theorem chooseKey_mem {pick : Nat} {P : List (Fin 16)} {k : Fin 16} (h : chooseKey pick P = some k) : k ∈ P := by
  match P, h with
  | [k'], h => simp only [chooseKey, Option.some.injEq] at h; simp [h]
  | a :: b :: P, h =>
    simp only [chooseKey, Option.some.injEq] at h
    rw [← h]
    exact List.getElem_mem _

theorem chooseKey_eq_none {pick : Nat} {P : List (Fin 16)} : chooseKey pick P = none ↔ P = [] := by
  match P with
  | [] => simp [chooseKey]
  | [_] => simp [chooseKey]
  | _ :: _ :: _ => simp [chooseKey]

/-- Every key of the set can be chosen: the draw is over the whole set (R11). -/
theorem chooseKey_surjective {P : List (Fin 16)} {k : Fin 16} (h : k ∈ P) : ∃ pick, chooseKey pick P = some k := by
  match P, h with
  | [k'], h => exact ⟨0, by simp only [List.mem_singleton] at h; simp [chooseKey, h]⟩
  | a :: b :: P, h =>
    obtain ⟨n, hn, e⟩ := List.getElem_of_mem h
    refine ⟨n, ?_⟩
    simp only [List.length_cons] at hn
    simp only [chooseKey, Option.some.injEq]
    rw [← e]
    congr 1
    exact Nat.mod_eq_of_lt hn

theorem keyOperand_eq_none {v : Byte} : keyOperand v = none ↔ 15 < v.toNat := by
  unfold keyOperand
  split
  · simp; omega
  · simp; omega

theorem keyOperand_eq_some {v : Byte} {k : Fin 16} : keyOperand v = some k ↔ v.toNat = k.val := by
  unfold keyOperand
  split
  · next h => rw [Option.some.injEq, Fin.ext_iff]
  · next h => simp; omega

@[simp] theorem State.readKey_setKey (k l : Fin 16) (p : Bool) :
    (s.setKey k p).readKey l = if k = l then p else s.readKey l := by
  unfold State.readKey State.setKey
  rw [Vector.getElem_set]
  exact if_congr (Fin.ext_iff).symm rfl rfl

end Sys2Proof.Machine
end

