-- ==== Sys2Proof/Laws/Exec.lean ====
section
/-! SUPPORT. What executing an instruction can do, said once: the fault its check raises, or one of these updates. -/

namespace Sys2Proof.Machine

/-- The instructions that write one register and no flag from what was read, with that register. -/
def plainDest : Instr → Option RegIdx
  | .ldByte x _ => some x
  | .addByte x _ => some x
  | .ldReg x _ => some x
  | .orReg x _ => some x
  | .andReg x _ => some x
  | .xorReg x _ => some x
  | .ldVxDt x => some x
  | _ => none

/-- The instructions that write a result and then a flag, with the result's register. -/
def flagDest : Instr → Option RegIdx
  | .addReg x _ => some x
  | .subReg x _ => some x
  | .shr x _ => some x
  | .subn x _ => some x
  | .shl x _ => some x
  | _ => none

/-- The instructions that write `I` and no register. -/
def writesIndexOnly : Instr → Bool
  | .ldI _ => true
  | .ldF _ => true
  | .addI _ => true
  | _ => false

/-- The instructions that store bytes from `I` on. -/
def storesBytes : Instr → Bool
  | .ldB _ => true
  | .storeRegs _ => true
  | _ => false

/-- The states an instruction can lead to when its check passes. -/
inductive Completes (s : State) : Instr → State → Prop
  | ret (h : 0 < s.SP.val) :
      Completes s .ret { s with SP := ⟨s.SP.val - 1, by omega⟩, pc := s.stack[s.SP.val - 1]'(by omega) + 2 }
  | call (nnn : Addr) (h : s.SP.val < 16) :
      Completes s (.call nnn) { s with
        stack := s.stack.set s.SP.val s.pc h, SP := ⟨s.SP.val + 1, by omega⟩, pc := addrOperand nnn }
  | jp (nnn : Addr) : Completes s (.jp nnn) { s with pc := addrOperand nnn }
  | jpV0 (nnn : Addr) : Completes s (.jpV0 nnn) { s with pc := offsetTarget (s.readReg 0) nnn }
  | skip (i : Instr) (c : Bool) (h : isSkip i = true) : Completes s i (s.applyEffect (skipIf c))
  | plain (i : Instr) (x : RegIdx) (v : Byte) (h : plainDest i = some x) :
      Completes s i ((s.writeReg x v).applyEffect .next)
  | flag (i : Instr) (x : RegIdx) (r : Byte) (f : Bool) (h : flagDest i = some x) :
      Completes s i ((s.writeResultFlag x r f).applyEffect .next)
  | rnd (x : RegIdx) (kk : Byte) :
      Completes s (.rnd x kk) (State.applyEffect
        { s.writeReg x (Config.drawByte s.draws &&& kk) with draws := s.draws + 1 } .next)
  | index (i : Instr) (v : Word) (h : writesIndexOnly i = true) : Completes s i ((s.writeI v).applyEffect .next)
  | indexFlag (x : RegIdx) (v : Word) (f : Bool) (h : s.cfg.quirkAddIVf = true) :
      Completes s (.addI x) (((s.writeI v).writeReg VF (flagByte f)).applyEffect .next)
  | store (i : Instr) (bs : List Byte) (h : storesBytes i = true) :
      Completes s i ((s.writeBytes s.I.toNat bs).applyEffect .next)
  | load (x : RegIdx) :
      Completes s (.loadRegs x) ((s.writeRegs 0 (s.readBytes s.I.toNat (regCount x))).applyEffect .next)
  | cls : Completes s .cls (State.applyEffect { s with disp := Display.clear, redraw := true } .next)
  | drw (x y : RegIdx) (n : Nibble) (d : Display) (f : Bool) :
      Completes s (.drw x y n) (State.applyEffect { s.writeReg VF (flagByte f) with disp := d, redraw := true } .next)
  | setDT (x : RegIdx) : Completes s (.ldDtVx x) (State.applyEffect { s with DT := s.readReg x } .next)
  | setST (x : RegIdx) : Completes s (.ldStVx x) (State.applyEffect { s with ST := s.readReg x } .next)
  | wait (x : RegIdx) : Completes s (.ldVxK x) { s with mode := .awaitingKey x }

/-- What executing an instruction answers: its one fault, or one completion. -/
def ExecAnswers (i : Instr) (s : State) (answer : StepResult) : Prop :=
  (∃ k, faultOf i s = some k ∧ answer = s.raiseBy k i) ∨
    (faultOf i s = none ∧ ∃ t, answer = .next t ∧ Completes s i t)

variable {s : State}

theorem ExecAnswers.done {i : Instr} {t : State} (hf : faultOf i s = none) (h : Completes s i t) :
    ExecAnswers i s (.next t) := .inr ⟨hf, t, rfl, h⟩

theorem ite_none_some {α : Type} {p q : Prop} [Decidable p] [Decidable q] {k : α} (h : p ↔ ¬q) :
    (if p then some k else none) = if q then none else some k := by
  by_cases hq : q
  · rw [if_pos hq, if_neg (fun hp => h.1 hp hq)]
  · rw [if_neg hq, if_pos (h.2 hq)]

/-- An access that its range check guards. -/
theorem checkRange_answers {i : Instr} {n : Nat} {t : State}
    (hf : faultOf i s = if n = 0 ∨ s.I.toNat + n ≤ 4096 then none else some .outOfBoundsMemoryAccess)
    (h : Completes s i t) : ExecAnswers i s (s.checkRange s.I.toNat n i (.next t)) := by
  by_cases hr : n = 0 ∨ s.I.toNat + n ≤ 4096
  · rw [State.checkRange_in s hr]; exact .done (by rw [hf, if_pos hr]) h
  · rw [State.checkRange_out s (by omega) (by omega)]; exact .inl ⟨_, by rw [hf, if_neg hr], rfl⟩

/-- A key skip. -/
theorem keySkip_answers {i : Instr} {v : Byte} (c : Fin 16 → Bool) (hi : isSkip i = true)
    (hf : faultOf i s = if v.toNat > 15 then some .keyIndexOutOfRange else none) :
    ExecAnswers i s (match keyOperand v with
      | none => s.raiseBy .keyIndexOutOfRange i
      | some k => s.endWith (skipIf (c k))) := by
  cases hk : keyOperand v with
  | none => exact .inl ⟨_, by rw [hf, if_pos (keyOperand_eq_none.1 hk)], rfl⟩
  | some k =>
    have := keyOperand_eq_some.1 hk
    exact .done (by rw [hf, if_neg (by omega)]) (.skip i _ hi)

theorem execRet_answers : ExecAnswers .ret s (execRet s) := by
  unfold execRet
  cases h : s.pop with
  | none => exact .inl ⟨_, if_pos ((State.pop_eq_none s).1 h), rfl⟩
  | some p =>
    obtain ⟨v, t⟩ := p
    obtain ⟨h0, rfl, rfl⟩ := (State.pop_eq_some s).1 h
    exact .done (if_neg (by omega)) (.ret h0)

theorem execCall_answers (nnn : Addr) : ExecAnswers (.call nnn) s (execCall nnn s) := by
  unfold execCall
  cases h : s.push s.pc with
  | none => exact .inl ⟨_, if_pos ((State.push_eq_none s).1 h), rfl⟩
  | some t =>
    obtain ⟨h0, rfl⟩ := (State.push_eq_some s).1 h
    exact .done (if_neg (by omega)) (.call nnn h0)

theorem execAddI_answers (x : RegIdx) : ExecAnswers (.addI x) s (execAddI x s) := by
  unfold execAddI
  cases h : s.cfg.quirkAddIVf
  · exact .done rfl (.index _ _ rfl)
  · exact .done rfl (.indexFlag x _ _ h)

/-- What executing an instruction can do. -/
theorem exec_answers (i : Instr) : ExecAnswers i s (exec i s) := by
  cases i with
  | cls => exact .done rfl .cls
  | ret => exact execRet_answers
  | jp nnn => exact .done rfl (.jp nnn)
  | call nnn => exact execCall_answers nnn
  | seByte x kk => exact .done rfl (.skip _ _ rfl)
  | sneByte x kk => exact .done rfl (.skip _ _ rfl)
  | seReg x y => exact .done rfl (.skip _ _ rfl)
  | ldByte x kk => exact .done rfl (.plain _ _ _ rfl)
  | addByte x kk => exact .done rfl (.plain _ _ _ rfl)
  | ldReg x y => exact .done rfl (.plain _ _ _ rfl)
  | orReg x y => exact .done rfl (.plain _ _ _ rfl)
  | andReg x y => exact .done rfl (.plain _ _ _ rfl)
  | xorReg x y => exact .done rfl (.plain _ _ _ rfl)
  | addReg x y => exact .done rfl (.flag _ _ _ _ rfl)
  | subReg x y => exact .done rfl (.flag _ _ _ _ rfl)
  | shr x y => exact .done rfl (.flag _ _ _ _ rfl)
  | subn x y => exact .done rfl (.flag _ _ _ _ rfl)
  | shl x y => exact .done rfl (.flag _ _ _ _ rfl)
  | sneReg x y => exact .done rfl (.skip _ _ rfl)
  | ldI nnn => exact .done rfl (.index _ _ rfl)
  | jpV0 nnn => exact .done rfl (.jpV0 nnn)
  | rnd x kk => exact .done rfl (.rnd x kk)
  | drw x y n =>
    refine checkRange_answers ?_ (.drw x y n _ _)
    exact ite_none_some (by omega)
  | skp x => exact keySkip_answers (fun k => s.readKey k) rfl rfl
  | sknp x => exact keySkip_answers (fun k => !s.readKey k) rfl rfl
  | ldVxDt x => exact .done rfl (.plain _ _ _ rfl)
  | ldVxK x => exact .done rfl (.wait x)
  | ldDtVx x => exact .done rfl (.setDT x)
  | ldStVx x => exact .done rfl (.setST x)
  | addI x => exact execAddI_answers x
  | ldF x => exact .done rfl (.index _ _ rfl)
  | ldB x =>
    refine checkRange_answers ?_ (.store _ _ rfl)
    exact ite_none_some (by omega)
  | storeRegs x =>
    refine checkRange_answers ?_ (.store _ _ rfl)
    exact ite_none_some (by unfold regCount; omega)
  | loadRegs x =>
    refine checkRange_answers ?_ (.load x)
    exact ite_none_some (by unfold regCount; omega)

/-- From an answered next state: the fault, or one completion. -/
theorem exec_cases {i : Instr} {t : State} (h : exec i s = .next t) :
    (∃ k, faultOf i s = some k ∧ t = s.raise k (some (encode i)) s.pc) ∨ (faultOf i s = none ∧ Completes s i t) := by
  rcases exec_answers (s := s) i with ⟨k, hf, he⟩ | ⟨hf, t', he, hc⟩
  · rw [he] at h; cases h; exact .inl ⟨k, hf, rfl⟩
  · rw [he] at h; cases h; exact .inr ⟨hf, hc⟩

/-! ### Drawing and the key wait -/

/-- The pixels a sprite in memory covers, by address instead of by list. -/
theorem spriteCovers_readBytes {x y : RegIdx} {n : Nibble} {px : Fin 64} {py : Fin 32} :
    SpriteCovers (s.readBytes s.I.toNat n.toNat) (s.readReg x) (s.readReg y) px py ↔ s.drwCovers x y n px py := by
  constructor
  · rintro ⟨r, c, b, hb, hc, hbit, h1, h2⟩
    rw [State.readBytes_getElem?] at hb
    split at hb
    · next hr => cases hb; exact ⟨r, c, hr, hc, hbit, h1, h2⟩
    · cases hb
  · rintro ⟨r, c, hr, hc, hbit, h1, h2⟩
    exact ⟨r, c, _, by rw [State.readBytes_getElem?, if_pos hr], hc, hbit, h1, h2⟩

/-- A sprite inside memory is drawn: the display and the collision are those of `drawRows` (R191). -/
theorem execDrw_inRange {x y : RegIdx} {n : Nibble} (h : n.toNat = 0 ∨ s.I.toNat + n.toNat ≤ 4096) :
    execDrw x y n s =
      (let drawn := drawRows (s.readReg x) (s.readReg y) 0 (s.readBytes s.I.toNat n.toNat) (s.disp, false)
       State.endWith { s.writeReg VF (flagByte drawn.2) with disp := drawn.1, redraw := true } .next) :=
  State.checkRange_in s h

/-- A key wait changes nothing while no key is pressed, and completes with some pressed key otherwise (R206). -/
theorem keyWait_answers (x : RegIdx) :
    ((∀ k, s.readKey k = false) ∧ keyWait x s = .next s) ∨
      ∃ k, s.readKey k = true ∧ keyWait x s = .next (s.completeWait x k) := by
  unfold keyWait keyWaitWith
  cases h : chooseKey (Config.drawKey s.draws) s.pressedKeys with
  | none =>
    refine .inl ⟨fun k => ?_, rfl⟩
    rw [← Bool.not_eq_true, ← s.mem_pressedKeys, chooseKey_eq_none.1 h]
    exact List.not_mem_nil
  | some k => exact .inr ⟨k, (s.mem_pressedKeys k).1 (chooseKey_mem h), rfl⟩

/-! ### The step, by mode -/

theorem step_faulted (h : s.mode = .faulted) : step s = .next s := by unfold step; rw [h]

theorem step_awaiting {x : RegIdx} (h : s.mode = .awaitingKey x) : step s = keyWait x s := by unfold step; rw [h]

theorem step_running (h : s.mode = .running) :
    step s = if fetchable s.pc then
      match decode s.fetchWord with
      | .instr i => exec i s
      | .unknown w => .next (s.raise .unknownOpcode (some w) s.pc)
    else .next (s.raise .outOfBoundsMemoryAccess none s.pc) := by unfold step; rw [h] <;> rfl

end Sys2Proof.Machine
end

