-- ==== Sys2Proof/Laws/PerInstr.lean ====
section
/-! SUPPORT. For every instruction: its row is a row of opcode_table.json, and its word is of that row (R72, R75). -/

namespace Sys2Proof.Laws.TableRow

/-- The instruction's row is in the table, and its word has that row's fixed bits (R72, R75). -/
def Statement (i : Instr) : Prop := i.row ∈ opcodeTable ∧ i.row.fits (encode i) = true

/-- A word of format NNN has the fixed bits of a row that fixes its top nibble. -/
theorem fits_NNN (op : Nibble) (nnn : Addr) : OpRow.fits ⟨wordNNN op 0, 0xF000⟩ (wordNNN op nnn) = true := by
  have h : (0xF000 : Word) = wordNNN 0xF 0 := by decide
  have ho : op &&& 0xF = op := BitVec.and_allOnes
  unfold OpRow.fits
  rw [h, wordNNN_and, ho]
  simp

/-- A word of format XKK has the fixed bits of a row that fixes its top nibble. -/
theorem fits_XKK (op : Nibble) (x : RegIdx) (kk : Byte) :
    OpRow.fits ⟨wordXKK op 0 0, 0xF000⟩ (wordXKK op x kk) = true := by
  have h : (0xF000 : Word) = wordXKK 0xF 0 0 := by decide
  have ho : op &&& 0xF = op := BitVec.and_allOnes
  unfold OpRow.fits
  rw [h, wordXKK_and, ho]
  simp

/-- A word of format XSEL has the fixed bits of a row that fixes its top nibble and its low byte. -/
theorem fits_XSEL (op : Nibble) (x : RegIdx) (kk : Byte) :
    OpRow.fits ⟨wordXKK op 0 kk, 0xF0FF⟩ (wordXKK op x kk) = true := by
  have h : (0xF0FF : Word) = wordXKK 0xF 0 0xFF := by decide
  have ho : op &&& 0xF = op := BitVec.and_allOnes
  have hk : kk &&& 0xFF = kk := BitVec.and_allOnes
  unfold OpRow.fits
  rw [h, wordXKK_and, ho, hk]
  simp

/-- A word of format XYN or XY0 has the fixed bits of a row that fixes its top and its low nibble. -/
theorem fits_XYN (op : Nibble) (x y : RegIdx) (n : Nibble) :
    OpRow.fits ⟨wordXYN op 0 0 n, 0xF00F⟩ (wordXYN op x y n) = true := by
  have h : (0xF00F : Word) = wordXYN 0xF 0 0 0xF := by decide
  have ho : op &&& 0xF = op := BitVec.and_allOnes
  have hn : n &&& 0xF = n := BitVec.and_allOnes
  unfold OpRow.fits
  rw [h, wordXYN_and, ho, hn]
  simp

/-- A word of format XYN has the fixed bits of a row that fixes its top nibble only. -/
theorem fits_Dxyn (op : Nibble) (x y : RegIdx) (n : Nibble) :
    OpRow.fits ⟨wordXYN op 0 0 0, 0xF000⟩ (wordXYN op x y n) = true := by
  have h : (0xF000 : Word) = wordXYN 0xF 0 0 0 := by decide
  have ho : op &&& 0xF = op := BitVec.and_allOnes
  unfold OpRow.fits
  rw [h, wordXYN_and, ho]
  simp

theorem cls : Statement .cls := ⟨by decide, by decide⟩
theorem ret : Statement .ret := ⟨by decide, by decide⟩
theorem jp (nnn : Addr) : Statement (.jp nnn) := ⟨(by decide : Instr.row (.jp 0) ∈ opcodeTable), fits_NNN _ nnn⟩
theorem call (nnn : Addr) : Statement (.call nnn) := ⟨(by decide : Instr.row (.call 0) ∈ opcodeTable), fits_NNN _ nnn⟩
theorem seByte (x : RegIdx) (kk : Byte) : Statement (.seByte x kk) :=
  ⟨(by decide : Instr.row (.seByte 0 0) ∈ opcodeTable), fits_XKK _ x kk⟩
theorem sneByte (x : RegIdx) (kk : Byte) : Statement (.sneByte x kk) :=
  ⟨(by decide : Instr.row (.sneByte 0 0) ∈ opcodeTable), fits_XKK _ x kk⟩
theorem seReg (x y : RegIdx) : Statement (.seReg x y) :=
  ⟨(by decide : Instr.row (.seReg 0 0) ∈ opcodeTable), fits_XYN _ x y _⟩
theorem ldByte (x : RegIdx) (kk : Byte) : Statement (.ldByte x kk) :=
  ⟨(by decide : Instr.row (.ldByte 0 0) ∈ opcodeTable), fits_XKK _ x kk⟩
theorem addByte (x : RegIdx) (kk : Byte) : Statement (.addByte x kk) :=
  ⟨(by decide : Instr.row (.addByte 0 0) ∈ opcodeTable), fits_XKK _ x kk⟩
theorem ldReg (x y : RegIdx) : Statement (.ldReg x y) :=
  ⟨(by decide : Instr.row (.ldReg 0 0) ∈ opcodeTable), fits_XYN _ x y _⟩
theorem orReg (x y : RegIdx) : Statement (.orReg x y) :=
  ⟨(by decide : Instr.row (.orReg 0 0) ∈ opcodeTable), fits_XYN _ x y _⟩
theorem andReg (x y : RegIdx) : Statement (.andReg x y) :=
  ⟨(by decide : Instr.row (.andReg 0 0) ∈ opcodeTable), fits_XYN _ x y _⟩
theorem xorReg (x y : RegIdx) : Statement (.xorReg x y) :=
  ⟨(by decide : Instr.row (.xorReg 0 0) ∈ opcodeTable), fits_XYN _ x y _⟩
theorem addReg (x y : RegIdx) : Statement (.addReg x y) :=
  ⟨(by decide : Instr.row (.addReg 0 0) ∈ opcodeTable), fits_XYN _ x y _⟩
theorem subReg (x y : RegIdx) : Statement (.subReg x y) :=
  ⟨(by decide : Instr.row (.subReg 0 0) ∈ opcodeTable), fits_XYN _ x y _⟩
theorem shr (x y : RegIdx) : Statement (.shr x y) :=
  ⟨(by decide : Instr.row (.shr 0 0) ∈ opcodeTable), fits_XYN _ x y _⟩
theorem subn (x y : RegIdx) : Statement (.subn x y) :=
  ⟨(by decide : Instr.row (.subn 0 0) ∈ opcodeTable), fits_XYN _ x y _⟩
theorem shl (x y : RegIdx) : Statement (.shl x y) :=
  ⟨(by decide : Instr.row (.shl 0 0) ∈ opcodeTable), fits_XYN _ x y _⟩
theorem sneReg (x y : RegIdx) : Statement (.sneReg x y) :=
  ⟨(by decide : Instr.row (.sneReg 0 0) ∈ opcodeTable), fits_XYN _ x y _⟩
theorem ldI (nnn : Addr) : Statement (.ldI nnn) := ⟨(by decide : Instr.row (.ldI 0) ∈ opcodeTable), fits_NNN _ nnn⟩
theorem jpV0 (nnn : Addr) : Statement (.jpV0 nnn) := ⟨(by decide : Instr.row (.jpV0 0) ∈ opcodeTable), fits_NNN _ nnn⟩
theorem rnd (x : RegIdx) (kk : Byte) : Statement (.rnd x kk) :=
  ⟨(by decide : Instr.row (.rnd 0 0) ∈ opcodeTable), fits_XKK _ x kk⟩
theorem drw (x y : RegIdx) (n : Nibble) : Statement (.drw x y n) :=
  ⟨(by decide : Instr.row (.drw 0 0 0) ∈ opcodeTable), fits_Dxyn _ x y n⟩
theorem skp (x : RegIdx) : Statement (.skp x) := ⟨(by decide : Instr.row (.skp 0) ∈ opcodeTable), fits_XSEL _ x _⟩
theorem sknp (x : RegIdx) : Statement (.sknp x) := ⟨(by decide : Instr.row (.sknp 0) ∈ opcodeTable), fits_XSEL _ x _⟩
theorem ldVxDt (x : RegIdx) : Statement (.ldVxDt x) := ⟨(by decide : Instr.row (.ldVxDt 0) ∈ opcodeTable), fits_XSEL _ x _⟩
theorem ldVxK (x : RegIdx) : Statement (.ldVxK x) := ⟨(by decide : Instr.row (.ldVxK 0) ∈ opcodeTable), fits_XSEL _ x _⟩
theorem ldDtVx (x : RegIdx) : Statement (.ldDtVx x) := ⟨(by decide : Instr.row (.ldDtVx 0) ∈ opcodeTable), fits_XSEL _ x _⟩
theorem ldStVx (x : RegIdx) : Statement (.ldStVx x) := ⟨(by decide : Instr.row (.ldStVx 0) ∈ opcodeTable), fits_XSEL _ x _⟩
theorem addI (x : RegIdx) : Statement (.addI x) := ⟨(by decide : Instr.row (.addI 0) ∈ opcodeTable), fits_XSEL _ x _⟩
theorem ldF (x : RegIdx) : Statement (.ldF x) := ⟨(by decide : Instr.row (.ldF 0) ∈ opcodeTable), fits_XSEL _ x _⟩
theorem ldB (x : RegIdx) : Statement (.ldB x) := ⟨(by decide : Instr.row (.ldB 0) ∈ opcodeTable), fits_XSEL _ x _⟩
theorem storeRegs (x : RegIdx) : Statement (.storeRegs x) := ⟨(by decide : Instr.row (.storeRegs 0) ∈ opcodeTable), fits_XSEL _ x _⟩
theorem loadRegs (x : RegIdx) : Statement (.loadRegs x) := ⟨(by decide : Instr.row (.loadRegs 0) ∈ opcodeTable), fits_XSEL _ x _⟩

end Sys2Proof.Laws.TableRow
end

