-- ==== Sys2Proof/Laws/Runs.lean ====
section
/-! SUPPORT. Runs of transactions: their composition, R274's condition, and the first state that meets it. -/

namespace Sys2Proof.Machine

variable {s t : State} {τ : Transaction} {τs : List Transaction}

@[simp] theorem runTransactions_nil : runTransactions [] s = .next s := rfl

theorem runTransactions_cons (h : transact τ s = .next t) : runTransactions (τ :: τs) s = runTransactions τs t := by
  rw [runTransactions, h]

/-- Boot is the run of `reset()` and `load(image)` (R270). -/
theorem runTransactions_boot (image : List Byte) :
    runTransactions (.reset :: .load image :: τs) s = runTransactions τs (s.boot image) := rfl

/-- R274's condition as a check is the condition in the rule's own terms. -/
theorem State.atEnd_iff : s.atEnd = true ↔ s.JumpsToItself := by
  unfold State.atEnd fetchable
  rw [Bool.and_eq_true, Bool.and_eq_true, decide_eq_true_iff, decide_eq_true_iff, decide_eq_true_iff, and_assoc]
  exact Iff.rfl

theorem firstEnd_of_atEnd (h : s.atEnd = true) : firstEnd τs s = some s := by
  cases τs <;> rw [firstEnd, if_pos h]

theorem firstEnd_nil (h : ¬s.atEnd = true) : firstEnd [] s = none := by rw [firstEnd, if_neg h]

theorem firstEnd_cons (h : ¬s.atEnd = true) (ht : transact τ s = .next t) : firstEnd (τ :: τs) s = firstEnd τs t := by
  rw [firstEnd, if_neg h, ht]

/-- What the first end of a run is: it meets the condition. -/
theorem firstEnd_atEnd (h : firstEnd τs s = some t) : t.atEnd = true := by
  induction τs generalizing s with
  | nil =>
    rw [firstEnd] at h
    split at h
    · next he => cases h; exact he
    · cases h
  | cons τ τs ih =>
    rw [firstEnd] at h
    split at h
    · next he => cases h; exact he
    · split at h
      · exact ih h
      · cases h
      · cases h

/-- Without a reset, the transactions up to the next reset are all of them. -/
theorem endOfRun_of_no_reset (image : List Byte) (h : Transaction.reset ∉ τs) :
    s.endOfRun image τs = firstEnd τs (s.boot image) := by
  unfold State.endOfRun
  rw [List.takeWhile_eq_self_iff.2]
  intro τ hτ
  exact decide_eq_true (fun e => h (e ▸ hτ))

/-- Setting sixteen keys, one after the other: a key gets the last value set for it. -/
theorem State.readKey_foldl_setKey (ks : List (Fin 16)) (p : Fin 16 → Bool) (l : Fin 16) :
    (ks.foldl (fun u k => u.setKey k (p k)) s).readKey l = if l ∈ ks then p l else s.readKey l := by
  induction ks generalizing s with
  | nil => simp
  | cons k ks ih =>
    rw [List.foldl_cons, ih, State.readKey_setKey]
    by_cases hl : l ∈ ks
    · rw [if_pos hl, if_pos (List.mem_cons_of_mem _ hl)]
    · rw [if_neg hl]
      by_cases hk : k = l
      · subst hk; simp
      · rw [if_neg hk, if_neg (by simp [hl, Ne.symm hk])]

end Sys2Proof.Machine
end

