-- ==== Sys2Proof/Tests/Slice0.lean ====
section
/-! SUPPORT. Tests from the spec: words written out from its encodings, its worked examples and its vectors
(95_test_vectors.md), and the ill-formed terms its checks refuse. -/

namespace Sys2Proof.Tests

open Sys2Proof Sys2Proof.Machine

/-! ### Ill-formed terms are refused -/

theorem test_font_must_lie_below_program_start :
    Config.wf { Config.default with fontBase := 0x1B1 } = false := by decide
theorem test_font_at_the_last_place_is_accepted :
    Config.wf { Config.default with fontBase := 0x1B0 } = true := by decide
theorem test_font_rows_are_in_the_high_nibble :
    Config.wf { Config.default with fontData := Config.default.fontData.set 79 0x01 } = false := by decide
theorem test_image_of_3585_bytes_is_refused : imageWf (List.replicate 3585 0) = false := by decide +kernel
theorem test_image_of_3584_bytes_is_accepted : imageWf (List.replicate 3584 0) = true := by decide +kernel
/-- T21. -/
theorem test_illegal_words_are_refused :
    [0x0123, 0x0000, 0x00E1, 0x5121, 0x9121, 0x8128, 0x812F, 0xE1A2, 0xF1FF, 0xF100].all
      (fun w => !wordWf (BitVec.ofNat 16 w) && decodeTableWord 16 w == none) = true := by decide
theorem test_table_has_34_rows : opcodeTable.length = 34 := by decide

/-! ### Words written out from R72's patterns -/

theorem test_decode_cls : decode 0b0000_0000_1110_0000 = .instr .cls := by decide
theorem test_decode_ret : decode 0b0000_0000_1110_1110 = .instr .ret := by decide
theorem test_decode_jp : decode 0b0001_1010_1011_1100 = .instr (.jp 0xABC) := by decide
theorem test_decode_call : decode 0b0010_0011_0000_0001 = .instr (.call 0x301) := by decide
theorem test_decode_seByte : decode 0b0011_1010_0000_0101 = .instr (.seByte 0xA 0x05) := by decide
theorem test_decode_sneByte : decode 0b0100_0001_1000_0000 = .instr (.sneByte 0x1 0x80) := by decide
theorem test_decode_seReg : decode 0b0101_0010_0011_0000 = .instr (.seReg 0x2 0x3) := by decide
/-- R92. -/
theorem test_decode_ldByte : decode 0b0110_0000_0000_0101 = .instr (.ldByte 0x0 0x05) := by decide
/-- R92. -/
theorem test_decode_addByte : decode 0b0111_0000_0000_0011 = .instr (.addByte 0x0 0x03) := by decide
theorem test_decode_ldReg : decode 0b1000_0001_0011_0000 = .instr (.ldReg 0x1 0x3) := by decide
theorem test_decode_orReg : decode 0b1000_0001_0010_0001 = .instr (.orReg 0x1 0x2) := by decide
theorem test_decode_andReg : decode 0b1000_0001_0010_0010 = .instr (.andReg 0x1 0x2) := by decide
theorem test_decode_xorReg : decode 0b1000_0001_0010_0011 = .instr (.xorReg 0x1 0x2) := by decide
theorem test_decode_addReg : decode 0b1000_1111_0001_0100 = .instr (.addReg 0xF 0x1) := by decide
theorem test_decode_subReg : decode 0b1000_0010_0011_0101 = .instr (.subReg 0x2 0x3) := by decide
theorem test_decode_shr : decode 0b1000_0001_0010_0110 = .instr (.shr 0x1 0x2) := by decide
theorem test_decode_subn : decode 0b1000_0010_0011_0111 = .instr (.subn 0x2 0x3) := by decide
theorem test_decode_shl : decode 0b1000_0001_0000_1110 = .instr (.shl 0x1 0x0) := by decide
theorem test_decode_sneReg : decode 0b1001_0010_0011_0000 = .instr (.sneReg 0x2 0x3) := by decide
theorem test_decode_ldI : decode 0b1010_0011_0000_0000 = .instr (.ldI 0x300) := by decide
theorem test_decode_jpV0 : decode 0b1011_1111_1111_1111 = .instr (.jpV0 0xFFF) := by decide
theorem test_decode_rnd : decode 0b1100_0001_0000_1111 = .instr (.rnd 0x1 0x0F) := by decide
theorem test_decode_drw : decode 0b1101_0001_0010_0101 = .instr (.drw 0x1 0x2 0x5) := by decide
theorem test_decode_skp : decode 0b1110_0101_1001_1110 = .instr (.skp 0x5) := by decide
theorem test_decode_sknp : decode 0b1110_0101_1010_0001 = .instr (.sknp 0x5) := by decide
theorem test_decode_ldVxDt : decode 0b1111_0011_0000_0111 = .instr (.ldVxDt 0x3) := by decide
theorem test_decode_ldVxK : decode 0b1111_0001_0000_1010 = .instr (.ldVxK 0x1) := by decide
theorem test_decode_ldDtVx : decode 0b1111_0010_0001_0101 = .instr (.ldDtVx 0x2) := by decide
theorem test_decode_ldStVx : decode 0b1111_0100_0001_1000 = .instr (.ldStVx 0x4) := by decide
theorem test_decode_addI : decode 0b1111_0010_0001_1110 = .instr (.addI 0x2) := by decide
theorem test_decode_ldF : decode 0b1111_0000_0010_1001 = .instr (.ldF 0x0) := by decide
theorem test_decode_ldB : decode 0b1111_0000_0011_0011 = .instr (.ldB 0x0) := by decide
theorem test_decode_storeRegs : decode 0b1111_0010_0101_0101 = .instr (.storeRegs 0x2) := by decide
theorem test_decode_loadRegs : decode 0b1111_0010_0110_0101 = .instr (.loadRegs 0x2) := by decide
theorem test_decode_table_word : decodeTableWord 16 0x8124 = some (.addReg 0x1 0x2) := by decide

/-! ### One step from a small state -/

/-- What `f` reads in the next state. -/
def after {α : Type} (o : StepResult) (f : State → α) : Option α :=
  match o with
  | .next t => some (f t)
  | _ => none

/-- The common start state of 95_test_vectors.md: reset, then the word under test at 0x200. -/
def at200 (w : Nat) : State := State.reset.withFetchWord 16 w

/-- Registers 1 and 2 set. -/
def at200V (w : Nat) (v1 v2 : Byte) : State := ((at200 w).writeReg 1 v1).writeReg 2 v2

/-- T1, both steps' effects. -/
theorem test_t1_load_then_add :
    after (runTransactions [.load [0x60, 0x05, 0x70, 0x03], .step, .step] State.reset)
      (fun t => (t.readReg 0, t.pc, t.readReg VF)) = some (0x08, 0x204, 0x00) := by decide
/-- T2. -/
theorem test_jp : after (step (at200 0x1ABC)) (fun t => t.pc) = some 0xABC := by decide
/-- T3. -/
theorem test_call :
    after (step (State.withFetchWord { State.reset with pc := 0x204 } 16 0x2300))
      (fun t => (t.SP, t.stack[0], t.pc)) = some (1, 0x204, 0x300) := by decide
/-- T3. -/
theorem test_ret :
    after (step (State.withFetchWord { State.reset with pc := 0x30A, SP := 1, stack := State.reset.stack.set 0 0x204 } 16 0x00EE))
      (fun t => (t.SP, t.pc)) = some (0, 0x206) := by decide
/-- T9. -/
theorem test_ret_on_empty_stack :
    after (step (at200 0x00EE)) (fun t => (t.mode, t.fault, t.pc, t.SP)) =
      some (.faulted, some ⟨.stackUnderflow, some 0x00EE, 0x200⟩, 0x200, 0) := by decide
/-- T22, the 17th CALL. -/
theorem test_call_on_full_stack :
    after (step { at200 0x2200 with SP := 16 }) (fun t => (t.mode, t.fault, t.SP)) =
      some (.faulted, some ⟨.stackOverflow, some 0x2200, 0x200⟩, 16) := by decide
/-- T4. -/
theorem test_se_byte_taken : after (step (at200V 0x3105 0x05 0)) (fun t => t.pc) = some 0x204 := by decide
/-- T4. -/
theorem test_sne_byte_not_taken : after (step (at200V 0x4105 0x05 0)) (fun t => t.pc) = some 0x202 := by decide
/-- T22. -/
theorem test_se_reg_not_taken : after (step (at200V 0x5120 3 4)) (fun t => t.pc) = some 0x202 := by decide
/-- T22. -/
theorem test_sne_reg_taken : after (step (at200V 0x9120 3 4)) (fun t => t.pc) = some 0x204 := by decide
/-- T22. -/
theorem test_jp_v0_wraps : after (step ((at200 0xBFFF).writeReg 0 0xFF)) (fun t => t.pc) = some 0x0FE := by decide
/-- T20. -/
theorem test_fetch_at_0xFFF_faults :
    after (step { State.reset with pc := 0xFFF }) (fun t => (t.mode, t.fault)) =
      some (.faulted, some ⟨.outOfBoundsMemoryAccess, none, 0xFFF⟩) := by decide
/-- T20. -/
theorem test_fetch_at_0xFFE :
    after (step (State.withFetchWord { State.reset with pc := 0xFFE } 16 0x6000)) (fun t => (t.mode, t.pc)) =
      some (.running, 0x1000) := by decide
/-- T20: an odd pc, and the word of zeroed memory. -/
theorem test_odd_pc_and_zero_word :
    after (step { State.reset with pc := 0x201 }) (fun t => t.fault) =
      some (some ⟨.unknownOpcode, some 0x0000, 0x201⟩) := by decide

/-- T23. -/
theorem test_ld_byte : after (step (at200 0x6A42)) (fun t => (t.readReg 0xA, t.pc)) = some (0x42, 0x202) := by decide
/-- T23: add-immediate to VF. -/
theorem test_add_byte_to_vf :
    after (step ((at200 0x7FFF).writeReg VF 1)) (fun t => t.readReg VF) = some 0x00 := by decide
/-- T23. -/
theorem test_ld_reg : after (step ((at200 0x8130).writeReg 3 0x42)) (fun t => t.readReg 1) = some 0x42 := by decide
/-- T23. -/
theorem test_or : after (step (at200V 0x8121 0xF0 0x0F)) (fun t => (t.readReg 1, t.readReg VF)) = some (0xFF, 0) := by decide
/-- T23. -/
theorem test_and : after (step (at200V 0x8122 0xF0 0x3C)) (fun t => t.readReg 1) = some 0x30 := by decide
/-- T23. -/
theorem test_xor : after (step (at200V 0x8123 0xF0 0x3C)) (fun t => t.readReg 1) = some 0xCC := by decide
/-- T5. -/
theorem test_add_carry : after (step (at200V 0x8124 0xFF 0x01)) (fun t => (t.readReg 1, t.readReg VF)) = some (0, 1) := by decide
/-- T23: the flag wins when x = F. -/
theorem test_add_into_vf :
    after (step (((at200 0x8F14).writeReg VF 1).writeReg 1 1)) (fun t => t.readReg VF) = some 0 := by decide
/-- T23. -/
theorem test_sub_borrow : after (step (at200V 0x8125 0x05 0x07)) (fun t => (t.readReg 1, t.readReg VF)) = some (0xFE, 0) := by decide
/-- T23. -/
theorem test_sub_equal : after (step (at200V 0x8125 0x07 0x07)) (fun t => (t.readReg 1, t.readReg VF)) = some (0, 1) := by decide
/-- T23: SHR ignores y. -/
theorem test_shr_ignores_y :
    after (step (at200V 0x8126 0x04 0xFF)) (fun t => (t.readReg 1, t.readReg 2, t.readReg VF)) = some (2, 0xFF, 0) := by decide
/-- T6. -/
theorem test_shr : after (step (at200V 0x8106 0x82 0)) (fun t => (t.readReg 1, t.readReg VF)) = some (0x41, 0) := by decide
/-- T23. -/
theorem test_subn_borrow : after (step (at200V 0x8127 0x07 0x05)) (fun t => (t.readReg 1, t.readReg VF)) = some (0xFE, 0) := by decide
/-- T6. -/
theorem test_shl : after (step (at200V 0x810E 0x80 0)) (fun t => (t.readReg 1, t.readReg VF)) = some (0, 1) := by decide
/-- T23, with the drawn byte given. -/
theorem test_rnd : after (rndWith 0x5A 1 0x0F (at200 0xC10F)) (fun t => t.readReg 1) = some 0x0A := by decide

/-- T24. -/
theorem test_ld_i : after (step (at200 0xA300)) (fun t => t.I) = some 0x300 := by decide
/-- T24. -/
theorem test_add_i_wraps :
    after (step (State.writeReg { at200 0xF01E with I := 0xFFF } 0 1)) (fun t => (t.I, t.readReg VF)) = some (0, 0) := by decide
/-- T24, the quirk enabled. -/
theorem test_add_i_quirk :
    after (step (State.writeReg { at200 0xFF1E with I := 0x100, cfg := { Config.default with quirkAddIVf := true } } VF 0x10))
      (fun t => (t.I, t.readReg VF)) = some (0x110, 0) := by decide
/-- T24. -/
theorem test_ld_f : after (step ((at200 0xF029).writeReg 0 0xFF)) (fun t => t.I) = some 0x4FB := by decide
/-- T24, another font base. -/
theorem test_ld_f_other_base :
    after (step ((State.withFetchWord { State.reset with cfg := { Config.default with fontBase := 0x050 } } 16 0xF029).writeReg 0 1))
      (fun t => t.I) = some 0x055 := by decide
/-- T24. -/
theorem test_ld_b_at_the_top :
    after (step (State.writeReg { at200 0xF033 with I := 0xFFD } 0 0xFF)) (fun t => t.readBytes 0xFFD 3) =
      some [2, 5, 5] := by decide
/-- T24. -/
theorem test_ld_b_out_of_range :
    after (step (State.writeReg { at200 0xF033 with I := 0xFFE } 0 0xFF)) (fun t => (t.fault, t.readByte 0xFFE)) =
      some (some ⟨.outOfBoundsMemoryAccess, some 0xF033, 0x200⟩, 0) := by decide
/-- T24. -/
theorem test_store_regs :
    after (step (State.writeReg { at200V 0xF255 2 3 with I := 0x300 } 0 1)) (fun t => (t.readBytes 0x300 4, t.I)) =
      some ([1, 2, 3, 0], 0x300) := by decide
/-- T24. -/
theorem test_store_regs_out_of_range :
    after (step { at200 0xF355 with I := 0xFFD }) (fun t => (t.fault, t.mem == (at200 0xF355).mem)) =
      some (some ⟨.outOfBoundsMemoryAccess, some 0xF355, 0x200⟩, true) := by decide
/-- T24. -/
theorem test_load_regs :
    after (step { (at200 0xF265).writeBytes 0x300 [2, 3, 4, 5] with I := 0x300 })
      (fun t => (t.readReg 0, t.readReg 1, t.readReg 2, t.readReg 3)) = some (2, 3, 4, 0) := by decide
/-- T24. -/
theorem test_load_regs_out_of_range :
    after (step { at200 0xFF65 with I := 0xFF1 }) (fun t => t.fault) =
      some (some ⟨.outOfBoundsMemoryAccess, some 0xFF65, 0x200⟩) := by decide
/-- T24: no protection of the font. -/
theorem test_store_over_the_font : after (step (at200 0xF055)) (fun t => t.readByte 0) = some 0 := by decide

/-- T8. -/
theorem test_cls :
    after (step { at200 0x00E0 with disp := State.reset.disp.set 3 0xFF }) (fun t => (t.disp == Display.clear, t.redraw)) =
      some (true, true) := by decide
/-- T7: the first draw of glyph 0 at (10, 5). -/
theorem test_drw_glyph :
    after (step (at200V 0xD125 10 5)) (fun t => (t.disp[5], t.disp[6], t.disp[9], t.disp[10], t.readReg VF)) =
      some (0x3C00, 0x2400, 0x3C00, 0, 0) := by decide
/-- T25: wrap at the right and the bottom. -/
theorem test_drw_wraps :
    after (step { (at200V 0xD122 62 31).writeBytes 0x300 [0xFF, 0x80] with I := 0x300 })
      (fun t => (t.disp[31], t.disp[0], t.readReg VF)) =
      some (0xC00000000000003F, 0x4000000000000000, 0) := by decide
/-- T25: a sprite past the end. -/
theorem test_drw_out_of_range :
    after (step { at200 0xD002 with I := 0xFFF }) (fun t => (t.fault, t.redraw)) =
      some (some ⟨.outOfBoundsMemoryAccess, some 0xD002, 0x200⟩, false) := by decide

/-- T26. -/
theorem test_ld_vx_dt : after (step { at200 0xF307 with DT := 0x3C }) (fun t => t.readReg 3) = some 0x3C := by decide
/-- T26, then two ticks. -/
theorem test_ld_dt_vx : after (step (at200V 0xF215 0 3)) (fun t => t.tickTimers.tickTimers.DT) = some 1 := by decide
/-- T26, then one tick. -/
theorem test_ld_st_vx :
    after (step ((at200 0xF418).writeReg 4 1)) (fun t => (t.ST, t.tone, t.tickTimers.tone)) = some (1, true, false) := by decide
/-- T26. -/
theorem test_skp_pressed :
    after (step (((at200 0xE59E).writeReg 5 7).setKey 7 true)) (fun t => t.pc) = some 0x204 := by decide
/-- T26. -/
theorem test_skp_index_out_of_range :
    after (step (at200V 0xE19E 0x10 0)) (fun t => t.fault) =
      some (some ⟨.keyIndexOutOfRange, some 0xE19E, 0x200⟩) := by decide
/-- T26. -/
theorem test_sknp_released : after (step ((at200 0xE5A1).writeReg 5 7)) (fun t => t.pc) = some 0x204 := by decide
/-- T26: a key held from the start is not sampled by the fetching step. -/
theorem test_ld_vx_k_waits :
    after (step ((at200 0xF10A).setKey 3 true)) (fun t => (t.mode, t.pc)) = some (.awaitingKey 1, 0x200) := by decide
/-- T26: the completing step. -/
theorem test_ld_vx_k_completes :
    after (runTransactions [.step, .step] ((at200 0xF10A).setKey 3 true)) (fun t => (t.readReg 1, t.pc, t.mode)) =
      some (3, 0x202, .running) := by decide
/-- T26: with two keys pressed the draw decides. -/
theorem test_key_draw :
    (chooseKey 0 [2, 9], chooseKey 1 [2, 9], chooseKey 7 [2, 9]) = (some 2, some 9, some 9) := by decide

/-- T26. -/
theorem test_tick_while_faulted :
    (State.tickTimers { State.reset with mode := .faulted, DT := 5 }).DT = 4 := by decide
/-- T10. -/
theorem test_load_oversize :
    ((State.reset.load (List.replicate 3585 0xAB)).fault, (State.reset.load (List.replicate 3585 0xAB)).readByte 0x200) =
      (some ⟨.invalidImageSize, none, 0x200⟩, 0) := by decide +kernel
/-- T10. -/
theorem test_load :
    ((State.reset.load [0x12, 0x34, 0x56]).readBytes 0x1FF 5, State.reset.readBytes 0x04A 7) =
      ([0, 0x12, 0x34, 0x56, 0], [0xF0, 0xF0, 0x80, 0xF0, 0x80, 0x80, 0]) := by decide
/-- R242: `disp_out` bit `y*64 + x`. -/
theorem test_disp_out :
    (State.dispOut { State.reset with disp := Display.toggle Display.clear 5 3 }) = 1 <<< (3 * 64 + 5) := by decide +kernel

/-! ### Witnesses: a state and operands that meet every statement's hypotheses together, at the boundaries of each clause -/

/-- Reset with the index register set. -/
def atI (i : Word) : State := { State.reset with I := i }

theorem witness_EncodeOfDecodeIsTheWord : decode 0x8124 = .instr (.addReg 1 2) := by decide
theorem witness_DecoderAgreesWithTheOpcodeTable :
    decode 0xF265 = .instr (.loadRegs 2) ∧ (Instr.loadRegs 2).row ∈ opcodeTable ∧
      (Instr.loadRegs 2).row.fits 0xF265 = true := by decide
/-- The first word of memory that a program has, and the last that can be fetched. -/
theorem witness_StepRunsTheDecodedInstruction :
    [(at200 0x8124), State.withFetchWord { State.reset with pc := 0xFFE } 16 0x8124].all (fun s =>
      s.mode == .running && decide (s.pc.toNat ≤ 0xFFE) &&
        decode (s.readByte (BitVec.ofNat 12 s.pc.toNat) ++ s.readByte (BitVec.ofNat 12 (s.pc.toNat + 1)) : BitVec 16) ==
          .instr (.addReg 1 2)) = true := by decide
theorem witness_IllegalWordRaisesUnknownOpcode :
    (at200 0x8128).mode = .running ∧ (at200 0x8128).pc.toNat ≤ 0xFFE ∧
      ((at200 0x8128).readByte 0x200 ++ (at200 0x8128).readByte 0x201 : BitVec 16) = 0x8128 ∧
      decode 0x8128 = .unknown 0x8128 := by decide
theorem witness_FetchAboveMemoryFaults :
    (State.mode { State.reset with pc := 0xFFF }) = .running ∧
      (State.pc { State.reset with pc := 0xFFF }).toNat > 0xFFE := by decide
theorem witness_FaultedIsLeftOnlyByReset :
    ∃ t, (State.reset.raise .unknownOpcode none 0x200).mode = .faulted ∧ Transaction.tickTimers ≠ .reset ∧
      transact .tickTimers (State.reset.raise .unknownOpcode none 0x200) = .next t := ⟨_, by decide, by decide, rfl⟩
theorem witness_FaultingStepsChangeOnlyModeAndRecord :
    (at200 0x00EE).mode = .running ∧ after (step (at200 0x00EE)) (fun t => t.mode) = some .faulted := by decide
/-- Each check at the last value that passes and the first that fails. -/
theorem witness_InstructionsFaultExactlyWhenTheirCheckFails :
    faultOf .ret { State.reset with SP := 1 } = none ∧ faultOf .ret State.reset = some .stackUnderflow ∧
      faultOf (.call 0) { State.reset with SP := 15 } = none ∧
      faultOf (.call 0) { State.reset with SP := 16 } = some .stackOverflow ∧
      faultOf (.drw 0 0 0) (atI 0xFFF) = none ∧ faultOf (.drw 0 0 1) (atI 0xFFF) = none ∧
      faultOf (.drw 0 0 2) (atI 0xFFF) = some .outOfBoundsMemoryAccess ∧
      faultOf (.ldB 0) (atI 0xFFD) = none ∧ faultOf (.ldB 0) (atI 0xFFE) = some .outOfBoundsMemoryAccess ∧
      faultOf (.storeRegs 15) (atI 0xFF0) = none ∧
      faultOf (.storeRegs 15) (atI 0xFF1) = some .outOfBoundsMemoryAccess ∧
      faultOf (.loadRegs 0) (atI 0xFFF) = none ∧ faultOf (.loadRegs 1) (atI 0xFFF) = some .outOfBoundsMemoryAccess ∧
      faultOf (.skp 1) (State.reset.writeReg 1 15) = none ∧
      faultOf (.skp 1) (State.reset.writeReg 1 16) = some .keyIndexOutOfRange ∧
      faultOf (.sknp 1) (State.reset.writeReg 1 16) = some .keyIndexOutOfRange ∧ State.reset.mode = .running := by decide
theorem witness_PlacedWordIsRunNext : decodeTableWord 16 0xD125 = some (.drw 1 2 5) := by decide
theorem witness_AddThenSubRestores : (1 : RegIdx) ≠ VF ∧ (2 : RegIdx) ≠ VF ∧ (1 : RegIdx) ≠ 2 := by decide
theorem witness_CallPushesItsOwnAddress :
    (State.SP { State.reset with SP := 15 }).val < 16 ∧ (State.SP { State.reset with SP := 16 }).val = 16 ∧
      (State.mode { State.reset with SP := 16 }) = .running := by decide
theorem witness_RetReturnsPastThePushedAddress :
    0 < (State.SP { State.reset with SP := 1 }).val ∧ State.reset.SP.val = 0 ∧ State.reset.mode = .running := by decide
theorem witness_CallThenRetResumesAfterTheCall :
    ∃ t u : State, State.reset.SP.val < 16 ∧ exec (.call 0x300) State.reset = .next t ∧ u.stack = t.stack ∧ u.SP = t.SP ∧
      u.readReg 3 ≠ t.readReg 3 := ⟨_, State.writeReg _ 3 7, by decide, rfl, rfl, rfl, by decide⟩
/-- One instruction for each clause. -/
theorem witness_PcAndModeFollowTheControlEffect :
    State.reset.mode = .running ∧
      [Instr.addReg 1 2, .skp 1, .jp 0x300, .call 0x300, .jpV0 0xFFF, .ret, .ldVxK 1].all (fun i =>
        faultOf i { State.reset with SP := 1 } == none &&
          (after (exec i { State.reset with SP := 1 }) (fun t => t.fault)) == some none) = true ∧
      isJump (.addReg 1 2) = false ∧ isSkip (.addReg 1 2) = false ∧ isSkip (.skp 1) = true := by decide
theorem witness_AddIndexWrapsAndFlagsOnlyByQuirk :
    State.reset.cfg.quirkAddIVf = false ∧
      (State.cfg { State.reset with cfg := { Config.default with quirkAddIVf := true } }).quirkAddIVf = true := by decide
theorem witness_BcdStoresThreeDigits :
    (atI 0xFFD).I.toNat + 2 ≤ 0xFFF ∧ (atI 0xFFE).I.toNat + 2 > 0xFFF ∧ (atI 0xFFE).mode = .running := by decide
theorem witness_RegisterDumpStoresV0ToVx :
    (atI 0xFF0).I.toNat + (15 : RegIdx).toNat ≤ 0xFFF ∧ (atI 0xFF1).I.toNat + (15 : RegIdx).toNat > 0xFFF ∧
      (atI 0xFF1).mode = .running := by decide
theorem witness_RegisterLoadReadsV0ToVx :
    (atI 0xFFF).I.toNat + (0 : RegIdx).toNat ≤ 0xFFF ∧ (atI 0xFFF).I.toNat + (1 : RegIdx).toNat > 0xFFF ∧
      (atI 0xFFF).mode = .running := by decide
/-- The dump ends at the last byte of memory. -/
theorem witness_StoredBytesAreFetchedNext :
    1 ≤ (1 : RegIdx).toNat ∧ (0xFFE : Word) = 0xFFC + 2 ∧ (0xFFC : Word).toNat + 2 + (1 : RegIdx).toNat ≤ 0xFFF := by decide
theorem witness_CanonicalMemoriesAreEqualWhenTheyReadEqual :
    let m := Memory.write Config.default [] 0x300 7
    let m' := Memory.write Config.default (Memory.write Config.default [] 0x300 5) 0x300 7
    m.wf Config.default = true ∧ m'.wf Config.default = true ∧ m.length = 1 ∧
      ∀ a : Addr, Memory.read Config.default m a = Memory.read Config.default m' a :=
  ⟨by decide, by decide, by decide, fun _ => rfl⟩
/-- A sprite of height 0, a last byte inside and one outside; the draw over a clear and over a set pixel. -/
theorem witness_DrwTogglesCoveredPixelsAndReportsCollision :
    (0 : Nibble).toNat = 0 ∧ (atI 0xFFF).I.toNat + (1 : Nibble).toNat - 1 ≤ 0xFFF ∧
      (2 : Nibble).toNat ≥ 1 ∧ (atI 0xFFF).I.toNat + (2 : Nibble).toNat - 1 > 0xFFF ∧ (atI 0xFFF).mode = .running ∧
      State.reset.drwCovers 0 0 1 0 0 ∧ State.reset.pixel 0 0 = false ∧
      (State.drwCovers { State.reset with disp := State.reset.disp.set 0 1 } 0 0 1 0 0) ∧
      (State.pixel { State.reset with disp := State.reset.disp.set 0 1 } 0 0) = true :=
  ⟨by decide, by decide, by decide, by decide, by decide, ⟨0, 0, by decide⟩, by decide, ⟨0, 0, by decide⟩, by decide⟩
theorem witness_DrawingTwiceRestoresTheDisplay :
    ∃ t, State.reset.I.toNat + (5 : Nibble).toNat - 1 ≤ 0xFFF ∧ exec (.drw 1 2 5) State.reset = .next t ∧
      t.disp = t.disp ∧ t.I = State.reset.I ∧ t.readReg 1 = State.reset.readReg 1 ∧
      t.readReg 2 = State.reset.readReg 2 ∧
      ∀ r, r < (5 : Nibble).toNat → t.readByte (addrOf (State.reset.I.toNat + r)) =
        State.reset.readByte (addrOf (State.reset.I.toNat + r)) :=
  ⟨_, by decide, rfl, rfl, rfl, by decide, by decide, fun _ _ => rfl⟩
theorem witness_KeySkipsReadTheLatch :
    ((State.reset.writeReg 1 15).readReg 1).toNat = (15 : Fin 16).val ∧
      ((State.reset.writeReg 1 16).readReg 1).toNat > 15 ∧ (State.reset.writeReg 1 16).mode = .running := by decide
/-- Waiting with no key pressed, and with two. -/
theorem witness_KeyWaitBeginsAndCompletes :
    let s : State := { State.reset with mode := .awaitingKey 4 }
    s.mode = .awaitingKey 4 ∧ (∀ k, s.readKey k = false) ∧
      ((s.setKey 2 true).setKey 9 true).mode = .awaitingKey 4 ∧
      ((s.setKey 2 true).setKey 9 true).readKey 9 = true := by decide
theorem witness_AwaitingKeyIsLeftOnlyByKeyResetOrFault :
    ∃ t u, transact .step (State.setKey { State.reset with mode := .awaitingKey 4 } 2 true) = .next t ∧
      t.mode = .running ∧ transact .tickTimers { State.reset with mode := .awaitingKey 4 } = .next u ∧
      u.mode = .awaitingKey 4 := ⟨_, _, rfl, by decide, rfl, rfl⟩
/-- For OnlyThreeInstructionsWriteIndex, OnlyBcdAndRegisterDumpWriteMemory and
DisplayStackTimersAndKeysHaveTheirWriters: an instruction that is none of the writers they name. -/
theorem witness_whoWritesWhat :
    ∃ t, exec (.addReg 1 2) State.reset = .next t ∧ (∀ nnn, Instr.addReg 1 2 ≠ .ldI nnn) ∧
      (∀ x, Instr.addReg 1 2 ≠ .addI x) ∧ (∀ x, Instr.addReg 1 2 ≠ .ldF x) ∧ (∀ x, Instr.addReg 1 2 ≠ .ldB x) ∧
      (∀ x, Instr.addReg 1 2 ≠ .storeRegs x) ∧ Instr.addReg 1 2 ≠ .cls ∧ (∀ x y n, Instr.addReg 1 2 ≠ .drw x y n) ∧
      (∀ nnn, Instr.addReg 1 2 ≠ .call nnn) ∧ Instr.addReg 1 2 ≠ .ret ∧ (∀ x, Instr.addReg 1 2 ≠ .ldDtVx x) ∧
      (∀ x, Instr.addReg 1 2 ≠ .ldStVx x) ∧ (State.redraw { State.reset with redraw := true }) = true :=
  ⟨_, rfl, nofun, nofun, nofun, nofun, nofun, nofun, nofun, nofun, nofun, nofun, nofun, rfl⟩
/-- LD Vx, [I] up to VE is the longest that leaves VF alone. -/
theorem witness_VfIsWrittenOnlyAsFlagOrDestination :
    ∃ t, exec (.loadRegs 0xE) State.reset = .next t ∧ writesFlag State.reset.cfg (.loadRegs 0xE) = false ∧
      destination (.loadRegs 0xE) ≠ some VF := ⟨_, rfl, by decide, by decide⟩
theorem witness_StepsDoNotReadSoundTimerOrRedraw :
    after (step ((at200 0xF418).writeReg 4 9)) (fun t => t.ST) = some 9 := by decide
/-- For StepsKeepTheInvariant and RunsKeepTheInvariant: a CALL at depth 15 whose address is the last one. -/
theorem witness_Inv :
    Inv (State.withFetchWord { State.reset with pc := 0xFFE, SP := 15 } 16 0x2FFF) ∧
      after (step (State.withFetchWord { State.reset with pc := 0xFFE, SP := 15 } 16 0x2FFF))
        (fun t => (t.SP, t.stack[15], t.pc)) = some (16, 0xFFE, 0xFFF) :=
  ⟨⟨by decide, by decide, nofun, by decide, by decide, nofun, by decide, by decide⟩, by decide⟩
theorem witness_ResetSetsEveryItemButTheKeys :
    (State.cfg { State.reset with cfg := { Config.default with fontBase := 0x1B0 } }).wf = true := by decide
/-- The largest image accepted and the smallest refused, in Running and in Faulted. -/
theorem witness_LoadCopiesTheImageOrFaults :
    (List.replicate 3584 (7 : Byte)).length ≤ 3584 ∧ (List.replicate 3585 (7 : Byte)).length > 3584 ∧
      State.reset.mode ≠ .faulted ∧ (State.reset.raise .unknownOpcode none 0x200).mode = .faulted :=
  ⟨List.length_replicate.le, by rw [List.length_replicate]; exact Nat.lt_succ_self _, by decide, by decide⟩
theorem witness_BootPlacesTheProgramAtTheEntryPoint : (List.replicate 3584 (7 : Byte)).length ≤ 3584 :=
  List.length_replicate.le
/-- No fault, a record without a word and one with a word; the three modes. -/
theorem witness_PortsShowTheStateAndSetTheKeys :
    State.reset.fault = none ∧ State.reset.mode = .running ∧
      (State.reset.raise .invalidImageSize none 0x200).fault = some ⟨.invalidImageSize, none, 0x200⟩ ∧
      (State.reset.raise .unknownOpcode (some 0) 0x200).fault = some ⟨.unknownOpcode, some 0, 0x200⟩ ∧
      (State.reset.raise .unknownOpcode (some 0) 0x200).mode = .faulted ∧
      (State.mode { State.reset with mode := .awaitingKey 3 }) = .awaitingKey 3 := by decide
/-- R274's end of a run: `1200` at 0x200. -/
theorem witness_EndOfRunStepsInPlace : (at200 0x1200).atEnd = true := by decide
/-- R274: a program `6005 1202` ends at its second state, whatever comes after; `00EE` faults and has no end. -/
theorem test_end_of_run :
    (State.reset.endOfRun [0x60, 0x05, 0x12, 0x02] [.step, .tickTimers, .step]).map (fun t => (t.pc, t.readReg 0)) =
        some (0x202, 5) ∧
      State.reset.runSucceeds [0x60, 0x05, 0x12, 0x02] [.step] = true ∧
      State.reset.endOfRun [0x60, 0x05, 0x12, 0x02] [.tickTimers] = none ∧
      State.reset.runSucceeds [0x00, 0xEE] [.step, .step] = false := by decide
/-- For EndOfRunIsTheFirstJumpToItself and EndsAreSuccessfulAndTheEngineKeepsJumping: a run that ends at once. -/
theorem witness_endOfRun :
    Transaction.reset ∉ [Transaction.step, .tickTimers] ∧ State.reset.cfg.wf = true ∧
      State.reset.endOfRun [0x12, 0x00] [.step, .tickTimers] = some (State.reset.boot [0x12, 0x00]) ∧
      ∀ τ ∈ [Transaction.step, .tickTimers], τ ≠ .reset ∧ ∀ im, τ ≠ .load im :=
  ⟨by decide, by decide, by rfl, by simp⟩

end Sys2Proof.Tests
end

section
/-! Frames of instructions that write one register, and RND (R153). -/

namespace Sys2Proof.Machine

variable (s : State) (x : RegIdx) (v r kk : Byte)

/-! ### Frames -/

/-- The bytes of memory are read from `mem` and `cfg` alone. -/
theorem BytesKept.of_mem_eq {s t : State} (hm : t.mem = s.mem) (hc : t.cfg = s.cfg) (a n : Nat) :
    BytesKept s t a n := fun b _ => State.readByte_congr hm hc b

theorem regsKept_writeReg : RegsKept s (s.writeReg x v) [x] := by
  intro y hy
  have hne : x ≠ y := Ne.symm (List.ne_of_not_mem_cons hy)
  exact State.readReg_writeReg_ne s v hne

/-- The frame of an instruction that writes one register and goes to the next one. -/
theorem onlyRegsAndPc_writeReg_next : OnlyRegsAndPc s ((s.writeReg x v).applyEffect .next) [x] := by
  refine ⟨fun y hy => ?_, .of_mem_eq (by simp) (by simp) 0 0, rfl⟩
  rw [State.readReg_applyEffect]
  exact regsKept_writeReg s x v y hy

/-! ### RND -/

theorem decode_wordXKK_rnd : decode (wordXKK 0xC x kk) = .instr (.rnd x kk) := by
  rw [decode_opC _ (opField_wordXKK ..), xField_wordXKK, kkField_wordXKK]

/-- `RND Vx, byte` is `rndWith` at the model's own draw (R10, R153; logs 2, 4). -/
theorem exec_rnd : exec (.rnd x kk) s = rndWith (Config.drawByte s.draws) x kk s := rfl

/-- The state after `RND Vx, byte` with the drawn byte `r`. -/
def State.afterRnd : State := State.applyEffect { s.writeReg x (r &&& kk) with draws := s.draws + 1 } .next

theorem rndWith_eq : rndWith r x kk s = .next (s.afterRnd x r kk) := rfl

@[simp] theorem State.afterRnd_pc : (s.afterRnd x r kk).pc = s.pc + 2 := rfl
@[simp] theorem State.afterRnd_draws : (s.afterRnd x r kk).draws = s.draws + 1 := rfl

/-- But for the count of draws, RND with a given byte is a plain register write. -/
theorem State.afterRnd_restoreDraws :
    { s.afterRnd x r kk with draws := s.draws } = (s.writeReg x (r &&& kk)).applyEffect .next := rfl

@[simp] theorem State.readReg_afterRnd_self : (s.afterRnd x r kk).readReg x = (r &&& kk) := by
  have hV : (s.afterRnd x r kk).V = (s.writeReg x (r &&& kk)).V := rfl
  rw [State.readReg_congr hV, State.readReg_writeReg_self]

/-- Settles O19: every draw leads to `afterRnd`, and `exec` takes the draw of the state's count. -/
theorem rndGivesTheDrawnByteMasked : Obligations.RndGivesTheDrawnByteMasked := by
  intro s x kk
  refine ⟨decode_wordXKK_rnd x kk, ?_, fun r => ?_⟩
  · have hdraw := rndWith_eq s x (Config.drawByte s.draws) kk
    refine ⟨_, (exec_rnd s x kk).trans hdraw, hdraw, State.readReg_afterRnd_self .., ?_⟩
    rintro rfl
    rw [State.readReg_afterRnd_self]
    exact BitVec.and_zero
  · refine ⟨_, rndWith_eq s x r kk, State.readReg_afterRnd_self .., State.afterRnd_pc ..,
      State.afterRnd_draws .., ?_⟩
    rw [State.afterRnd_restoreDraws]
    exact onlyRegsAndPc_writeReg_next s x (r &&& kk)

end Sys2Proof.Machine
end

section
/-! What one instruction does to each part of the state (R20 to R31), from `Completes`, and who writes what. -/

namespace Sys2Proof.Machine

variable {s t : State} {i : Instr}

/-! ### The classes of instructions that `Completes` speaks of -/

theorem writesIndexOnly_eq_false (hld : ∀ nnn, i ≠ .ldI nnn) (hadd : ∀ x, i ≠ .addI x) (hf : ∀ x, i ≠ .ldF x) :
    writesIndexOnly i = false := by
  cases i with
  | ldI nnn => exact absurd rfl (hld nnn)
  | addI x => exact absurd rfl (hadd x)
  | ldF x => exact absurd rfl (hf x)
  | _ => rfl

theorem destination_of_plainDest {x : RegIdx} (h : plainDest i = some x) : destination i = some x := by
  cases i with
  | ldByte | addByte | ldReg | orReg | andReg | xorReg | ldVxDt => exact h
  | _ => cases h

theorem writesFlag_of_flagDest {x : RegIdx} (c : Config) (h : flagDest i = some x) : writesFlag c i = true := by
  cases i with
  | addReg | subReg | shr | subn | shl => rfl
  | _ => cases h

/-- A conditional instruction is of no class that writes a register, the index or memory. -/
theorem classes_of_isSkip (h : isSkip i = true) :
    plainDest i = none ∧ flagDest i = none ∧ writesIndexOnly i = false ∧ storesBytes i = false := by
  cases i with
  | seByte | sneByte | seReg | sneReg | skp | sknp => exact ⟨rfl, rfl, rfl, rfl⟩
  | _ => cases h

/-! ### What a completion leaves unchanged -/

theorem Completes.cfg_eq (h : Completes s i t) : t.cfg = s.cfg := by cases h <;> simp

theorem Completes.key_eq (h : Completes s i t) : t.key = s.key := by cases h <;> simp

theorem Completes.fault_eq (h : Completes s i t) : t.fault = s.fault := by cases h <;> simp

theorem Completes.index_eq (h : Completes s i t) (hi : writesIndexOnly i = false) : t.I = s.I := by
  cases h with
  | index _ _ h => cases hi.symm.trans h
  | indexFlag => cases hi
  | _ => simp

theorem Completes.display_eq (h : Completes s i t) (hcls : i ≠ .cls) (hdrw : ∀ x y n, i ≠ .drw x y n) :
    t.disp = s.disp ∧ t.redraw = s.redraw := by
  cases h with
  | cls => exact absurd rfl hcls
  | drw x y n => exact absurd rfl (hdrw x y n)
  | _ => simp

/-- The two instructions that write `redraw` set it. -/
theorem Completes.redraw_kept (h : Completes s i t) (hr : s.redraw = true) : t.redraw = true := by
  cases h <;> simp [hr]

theorem Completes.stack_eq (h : Completes s i t) (hcall : ∀ nnn, i ≠ .call nnn) (hret : i ≠ .ret) :
    t.stack = s.stack ∧ t.SP = s.SP := by
  cases h with
  | call nnn => exact absurd rfl (hcall nnn)
  | ret => exact absurd rfl hret
  | _ => simp

theorem Completes.DT_eq (h : Completes s i t) (hi : ∀ x, i ≠ .ldDtVx x) : t.DT = s.DT := by
  cases h with
  | setDT x => exact absurd rfl (hi x)
  | _ => simp

theorem Completes.ST_eq (h : Completes s i t) (hi : ∀ x, i ≠ .ldStVx x) : t.ST = s.ST := by
  cases h with
  | setST x => exact absurd rfl (hi x)
  | _ => simp

theorem Completes.mode_eq (h : Completes s i t) (hi : ∀ x, i ≠ .ldVxK x) : t.mode = s.mode := by
  cases h with
  | wait x => exact absurd rfl (hi x)
  | _ => simp

/-! ### Who writes VF -/

/-- A register list that stops below VF leaves it as it is (R175). -/
theorem State.readVF_writeRegs_zero (bs : List Byte) (hl : bs.length ≤ 15) :
    (s.writeRegs 0 bs).readReg VF = s.readReg VF := by
  rw [State.readReg_writeRegs s 0 bs (by omega)]
  simp [hl]

theorem Completes.readVF_eq (h : Completes s i t) (hflag : writesFlag s.cfg i = false)
    (hdest : destination i ≠ some VF) : t.readReg VF = s.readReg VF := by
  cases h with
  | plain _ x v h =>
    have hx : x ≠ VF := fun e => hdest (e ▸ destination_of_plainDest h)
    rw [State.readReg_applyEffect, State.readReg_writeReg_ne s v hx]
  | flag _ _ _ _ h => cases hflag.symm.trans (writesFlag_of_flagDest s.cfg h)
  | rnd x kk =>
    have hx : x ≠ VF := fun e => hdest (e ▸ rfl)
    rw [State.readReg_applyEffect]
    exact State.readReg_writeReg_ne s _ hx
  | indexFlag _ _ _ h => cases hflag.symm.trans h
  | load x =>
    have hx : x.toNat ≠ 15 := fun e => hdest (congrArg some (BitVec.eq_of_toNat_eq e))
    rw [State.readReg_applyEffect]
    refine State.readVF_writeRegs_zero _ ?_
    rw [State.readBytes_length, regCount]
    omega
  | drw => cases hflag
  | ret | call | jp | jpV0 | cls | setDT | setST | wait => exact State.readReg_congr rfl VF
  | skip | index | store => simp

/-- Settles O41, from what a completion leaves and what a fault leaves. -/
theorem onlyThreeInstructionsWriteIndex : Obligations.OnlyThreeInstructionsWriteIndex := by
  intro i s t h hld hadd hf
  obtain ⟨k, -, rfl⟩ | ⟨-, hc⟩ := exec_cases h
  · exact State.raise_I s _ _ _
  · exact hc.index_eq (writesIndexOnly_eq_false hld hadd hf)

theorem pixelsKept_of_disp_eq (h : t.disp = s.disp) : PixelsKept s t := by
  intro x y
  rw [State.pixel, State.pixel, h]

/-- Settles O43: a fault writes none of these parts, a completion only what its instruction names. -/
theorem displayStackTimersAndKeysHaveTheirWriters : Obligations.DisplayStackTimersAndKeysHaveTheirWriters := by
  intro i s t h
  obtain ⟨k, -, rfl⟩ | ⟨-, hc⟩ := exec_cases h
  · simp [pixelsKept_of_disp_eq]
  · refine ⟨fun hcls hdrw => ?_, hc.redraw_kept, hc.stack_eq, hc.DT_eq, hc.ST_eq, hc.key_eq, hc.cfg_eq⟩
    obtain ⟨hdisp, hredraw⟩ := hc.display_eq hcls hdrw
    exact ⟨pixelsKept_of_disp_eq hdisp, hredraw⟩

/-- Settles O44: a fault writes no register, and a completion that writes VF is a flag writer or names it. -/
theorem vfIsWrittenOnlyAsFlagOrDestination : Obligations.VfIsWrittenOnlyAsFlagOrDestination := by
  intro i s t h hflag hdest
  obtain ⟨k, -, rfl⟩ | ⟨-, hc⟩ := exec_cases h
  · exact State.readReg_congr (State.raise_V s _ _ _) VF
  · exact hc.readVF_eq hflag hdest

end Sys2Proof.Machine
end

section
/-! Control flow without a fault: the equations of CALL, RET and the jumps, and how `pc` moves (R104, R105, R121, R122). -/

namespace Sys2Proof.Machine

variable {s t : State} {i : Instr}

/-- A CALL below depth 16 (R122). -/
theorem exec_call_of_lt (nnn : Addr) (h : s.SP.val < 16) :
    exec (.call nnn) s = .next { s with
      stack := s.stack.set s.SP.val s.pc h, SP := ⟨s.SP.val + 1, by omega⟩, pc := addrOperand nnn } := by
  have hpush := (State.push_eq_some s (v := s.pc)).2 ⟨h, rfl⟩
  simp only [exec, execCall, hpush, State.endWith, State.applyEffect]

/-- A RET above depth 0 (R121). -/
theorem exec_ret_of_pos (h : 0 < s.SP.val) :
    exec .ret s = .next { s with
      SP := ⟨s.SP.val - 1, by omega⟩, pc := s.stack[s.SP.val - 1]'(by omega) + 2 } := by
  have hpop := (State.pop_eq_some s).2 ⟨h, rfl, rfl⟩
  simp only [exec, execRet, hpop, State.endWith, State.applyEffect]

/-- A CALL at depth 16 (R122). -/
theorem exec_call_of_full (nnn : Addr) (h : s.SP.val = 16) :
    exec (.call nnn) s = s.raiseBy .stackOverflow (.call nnn) := by
  simp only [exec, execCall, (State.push_eq_none s).2 h]

/-- A RET at depth 0 (R121). -/
theorem exec_ret_of_zero (h : s.SP.val = 0) : exec .ret s = s.raiseBy .stackUnderflow .ret := by
  simp only [exec, execRet, (State.pop_eq_none s).2 h]

theorem exec_jp (nnn : Addr) : exec (.jp nnn) s = .next { s with pc := addrOperand nnn } := rfl

theorem exec_jpV0 (nnn : Addr) : exec (.jpV0 nnn) s = .next { s with pc := offsetTarget (s.readReg 0) nnn } := rfl

theorem exec_ldVxK (x : RegIdx) : exec (.ldVxK x) s = .next { s with mode := .awaitingKey x } := rfl

@[simp] theorem addrOperand_toNat (nnn : Addr) : (addrOperand nnn).toNat = nnn.toNat :=
  BitVec.toNat_setWidth_of_le (by decide)

@[simp] theorem offsetTarget_toNat (v : Byte) (nnn : Addr) :
    (offsetTarget v nnn).toNat = (v.toNat + nnn.toNat) % 4096 := by
  have hlt : (v.toNat + nnn.toNat) % memSize < 2 ^ 16 := (Nat.mod_lt _ (by decide)).trans (by decide)
  rw [offsetTarget, BitVec.toNat_ofNat, Nat.mod_eq_of_lt hlt]

/-- Settles O24: the RET pops the entry that the CALL pushed. -/
theorem callThenRetResumesAfterTheCall : Obligations.CallThenRetResumesAfterTheCall := by
  intro s t u nnn hlt hcall hstack hSP
  rw [exec_call_of_lt nnn hlt] at hcall
  cases hcall
  have hdepth : u.SP.val = s.SP.val + 1 := congrArg Fin.val hSP
  refine ⟨_, exec_ret_of_pos (by omega), ?_, Fin.ext ?_⟩
  · simp [hstack, hdepth]
  · simp [hdepth]

/-! ### How `pc` moves -/

theorem Completes.pc_eq_add_two (h : Completes s i t) (hj : isJump i = false) (hs : isSkip i = false)
    (hw : ∀ x, i ≠ .ldVxK x) : t.pc = s.pc + 2 := by
  cases h with
  | ret | call | jp | jpV0 => cases hj
  | skip _ _ h => cases hs.symm.trans h
  | wait x => exact absurd rfl (hw x)
  | _ => simp

theorem Completes.exists_skipIf (h : Completes s i t) (hs : isSkip i = true) : ∃ c, t = s.applyEffect (skipIf c) := by
  obtain ⟨hplain, hflag, hindex, hstore⟩ := classes_of_isSkip hs
  cases h with
  | skip _ c => exact ⟨c, rfl⟩
  | plain _ _ _ h => cases hplain.symm.trans h
  | flag _ _ _ _ h => cases hflag.symm.trans h
  | index _ _ h => cases hindex.symm.trans h
  | store _ _ h => cases hstore.symm.trans h
  | _ => cases hs

theorem Completes.pc_of_isSkip (h : Completes s i t) (hs : isSkip i = true) : t.pc = s.pc + 2 ∨ t.pc = s.pc + 4 := by
  obtain ⟨c, rfl⟩ := h.exists_skipIf hs
  cases c with
  | false => exact .inl rfl
  | true => exact .inr rfl

theorem pc_of_exec_jp_or_call {nnn : Addr} (hf : faultOf i s = none) (h : exec i s = .next t)
    (hi : i = .jp nnn ∨ i = .call nnn) : t.pc.toNat = nnn.toNat := by
  obtain rfl | rfl := hi
  · cases h
    exact addrOperand_toNat nnn
  · have hne : s.SP.val ≠ 16 := fun e => nomatch (if_pos e).symm.trans hf
    rw [exec_call_of_lt nnn (by omega)] at h
    cases h
    exact addrOperand_toNat nnn

theorem pc_of_exec_ret (hf : faultOf .ret s = none) (h : exec .ret s = .next t) :
    ∃ h : 0 < s.SP.val, t.pc = s.stack[s.SP.val - 1]'(by omega) + 2 := by
  have hne : s.SP.val ≠ 0 := fun e => nomatch (if_pos e).symm.trans hf
  have hpos : 0 < s.SP.val := Nat.pos_of_ne_zero hne
  rw [exec_ret_of_pos hpos] at h
  cases h
  exact ⟨hpos, rfl⟩

/-- Settles O26, clause by clause: from the completion where a class of instructions is meant, from the equation of
`exec` where one instruction is. -/
theorem pcAndModeFollowTheControlEffect : Obligations.PcAndModeFollowTheControlEffect := by
  intro i s t hrun hf h
  obtain ⟨k, hk, -⟩ | ⟨-, hc⟩ := exec_cases h
  · cases hk.symm.trans hf
  refine ⟨hc.pc_eq_add_two, hc.pc_of_isSkip, fun nnn => pc_of_exec_jp_or_call hf h, ?_, ?_, ?_, ?_⟩
  · rintro nnn rfl
    cases (exec_jpV0 nnn).symm.trans h
    exact offsetTarget_toNat _ nnn
  · rintro rfl
    exact pc_of_exec_ret hf h
  · exact fun hw => (hc.mode_eq hw).trans hrun
  · rintro x rfl
    cases (exec_ldVxK x).symm.trans h
    exact ⟨rfl, rfl⟩

end Sys2Proof.Machine
end

section
/-! What one step can do, said once, and the invariant of R38 along steps and runs (R25, R27, R35, R61, R271). -/

namespace Sys2Proof.Machine

variable {s t : State} {i : Instr}

/-! ### What a step can do -/

/-- The states a step can lead to, by the mode it starts in (R100 to R108). -/
inductive StepsTo (s : State) : State → Prop
  | halted (h : s.mode = .faulted) : StepsTo s s
  | waits (x : RegIdx) (h : s.mode = .awaitingKey x) (hk : ∀ k, s.readKey k = false) : StepsTo s s
  | wakes (x : RegIdx) (k : Fin 16) (h : s.mode = .awaitingKey x) (hk : s.readKey k = true) :
      StepsTo s (s.completeWait x k)
  | fetchFault (h : s.mode = .running) (hpc : 0xFFE < s.pc.toNat) :
      StepsTo s (s.raise .outOfBoundsMemoryAccess none s.pc)
  | illegal (w : Word) (h : s.mode = .running) (hpc : s.pc.toNat ≤ 0xFFE) (hd : decode s.fetchWord = .unknown w) :
      StepsTo s (s.raise .unknownOpcode (some w) s.pc)
  | checkFault (i : Instr) (k : FaultKind) (h : s.mode = .running) (hpc : s.pc.toNat ≤ 0xFFE)
      (hd : decode s.fetchWord = .instr i) (hf : faultOf i s = some k) : StepsTo s (s.raise k (some (encode i)) s.pc)
  | completes (i : Instr) (t : State) (h : s.mode = .running) (hpc : s.pc.toNat ≤ 0xFFE)
      (hd : decode s.fetchWord = .instr i) (hf : faultOf i s = none) (hc : Completes s i t) : StepsTo s t

theorem fetchable_iff {pc : Word} : fetchable pc = true ↔ pc.toNat ≤ 0xFFE := decide_eq_true_iff

theorem step_of_instr (h : s.mode = .running) (hpc : s.pc.toNat ≤ 0xFFE) (hd : decode s.fetchWord = .instr i) :
    step s = exec i s := by
  rw [step_running h, if_pos (fetchable_iff.2 hpc), hd]

theorem step_of_unknown {w : Word} (h : s.mode = .running) (hpc : s.pc.toNat ≤ 0xFFE)
    (hd : decode s.fetchWord = .unknown w) : step s = .next (s.raise .unknownOpcode (some w) s.pc) := by
  rw [step_running h, if_pos (fetchable_iff.2 hpc), hd]

theorem step_of_not_fetchable (h : s.mode = .running) (hpc : 0xFFE < s.pc.toNat) :
    step s = .next (s.raise .outOfBoundsMemoryAccess none s.pc) := by
  rw [step_running h, if_neg (fun hf => Nat.not_le.2 hpc (fetchable_iff.1 hf))]

/-- A step answers a next state, and only one that `StepsTo` allows. -/
theorem step_answers (s : State) : ∃ t, step s = .next t ∧ StepsTo s t := by
  cases h : s.mode with
  | faulted => exact ⟨s, step_faulted h, .halted h⟩
  | awaitingKey x =>
    rw [step_awaiting h]
    obtain ⟨hk, he⟩ | ⟨k, hk, he⟩ := keyWait_answers (s := s) x
    · exact ⟨s, he, .waits x h hk⟩
    · exact ⟨_, he, .wakes x k h hk⟩
  | running =>
    obtain hpc | hpc := Nat.lt_or_ge 0xFFE s.pc.toNat
    · exact ⟨_, step_of_not_fetchable h hpc, .fetchFault h hpc⟩
    cases hd : decode s.fetchWord with
    | unknown w => exact ⟨_, step_of_unknown h hpc hd, .illegal w h hpc hd⟩
    | instr i =>
      rw [step_of_instr h hpc hd]
      obtain ⟨k, hf, he⟩ | ⟨hf, t, he, hc⟩ := exec_answers (s := s) i
      · exact ⟨_, he, .checkFault i k h hpc hd hf⟩
      · exact ⟨t, he, .completes i t h hpc hd hf hc⟩

theorem stepsTo_of_step (h : step s = .next t) : StepsTo s t := by
  obtain ⟨u, hu, hs⟩ := step_answers s
  cases hu.symm.trans h
  exact hs

/-! ### The invariant's clauses along a completion -/

/-- R27's bound on the live entries of the stack. -/
def State.StackBounded (s : State) : Prop :=
  ∀ k : Fin 16, k.val < s.SP.val → (s.stack[k.val]'k.isLt).toNat ≤ 0xFFE

theorem masked_toNat_le (v : Word) : (v &&& 0x0FFF).toNat ≤ 0xFFF := by
  rw [BitVec.toNat_and]
  exact Nat.and_le_right

theorem Completes.index_le (h : Completes s i t) (hI : s.I.toNat ≤ 0xFFF) : t.I.toNat ≤ 0xFFF := by
  cases h with
  | index _ v | indexFlag _ v => simpa using masked_toNat_le v
  | _ => simpa using hI

/-- From a fetchable address, no advance of R105 leaves the bound of R25. -/
theorem pc_add_le {pc d : Word} (hpc : pc.toNat ≤ 0xFFE) (hd : d.toNat ≤ 4) : (pc + d).toNat ≤ 0x1002 := by
  rw [BitVec.toNat_add]
  exact (Nat.mod_le _ _).trans (Nat.add_le_add hpc hd)

/-- The largest `pc` is that of a skip at the last fetchable address (R25). -/
theorem Completes.pc_le (h : Completes s i t) (hpc : s.pc.toNat ≤ 0xFFE) (hst : s.StackBounded) :
    t.pc.toNat ≤ 0x1002 := by
  have h2 : (s.pc + 2).toNat ≤ 0x1002 := pc_add_le hpc (by decide)
  have h4 : (s.pc + 4).toNat ≤ 0x1002 := pc_add_le hpc (by decide)
  cases h with
  | ret h0 =>
    have htop := hst ⟨s.SP.val - 1, by omega⟩ (Nat.sub_one_lt_of_lt h0)
    exact pc_add_le htop (by decide)
  | call nnn | jp nnn => exact (addrOperand_toNat nnn).trans_le (by omega)
  | jpV0 nnn => exact (offsetTarget_toNat _ nnn).trans_le (by omega)
  | skip _ c =>
    cases c with
    | false => exact h2
    | true => exact h4
  | wait => exact hpc.trans (by decide)
  | _ => simpa using h2

/-- An instruction that leaves the engine waiting leaves `pc` where it was fetched (R206). -/
theorem Completes.pc_eq_of_awaiting {x : RegIdx} (h : Completes s i t) (hrun : s.mode = .running)
    (ht : t.mode = .awaitingKey x) : t.pc = s.pc := by
  cases h with
  | wait => rfl
  | _ => simp [hrun] at ht

theorem Completes.mode_ne_faulted (h : Completes s i t) (hrun : s.mode = .running) : t.mode ≠ .faulted := by
  cases h <;> simp [hrun]

/-- CALL pushes the address it was fetched from; every other instruction writes no entry (R27, R122). -/
theorem Completes.stackBounded (h : Completes s i t) (hpc : s.pc.toNat ≤ 0xFFE) (hst : s.StackBounded) :
    t.StackBounded := by
  intro k hk
  cases h with
  | ret => exact hst k (Nat.lt_of_lt_of_le hk (Nat.sub_le _ _))
  | call nnn hlt =>
    simp only [Vector.getElem_set]
    split
    · exact hpc
    · next hne => exact hst k (Nat.lt_of_le_of_ne (Nat.le_of_lt_succ hk) (Ne.symm hne))
  | _ => simpa using hst k (by simpa using hk)

theorem Completes.memWf (h : Completes s i t) (hm : s.mem.wf s.cfg = true) : t.mem.wf t.cfg = true := by
  cases h <;> simp [hm]

/-! ### The invariant -/

theorem Inv.fault_eq_none (hs : Inv s) (hm : s.mode ≠ .faulted) : s.fault = none :=
  Decidable.not_not.1 fun h => hm (hs.faultedIff.2 h)

/-- A fault raised at the current `pc`; an earlier record stays (R221, R223). -/
theorem Inv.raise (hs : Inv s) (k : FaultKind) (w : Option Word) : Inv (s.raise k w s.pc) := by
  by_cases hm : s.mode = .faulted
  · rwa [State.raise_of_faulted s hm]
  · rw [State.raise_of_not_faulted s hm]
    exact { hs with
      waitPc := nofun
      faultedIff := by simp
      faultPc := by simp }

theorem Inv.completeWait {x : RegIdx} (hs : Inv s) (hm : s.mode = .awaitingKey x) (k : Fin 16) :
    Inv (s.completeWait x k) := by
  have hnone : s.fault = none := hs.fault_eq_none (by simp [hm])
  exact { hs with
    pcBound := pc_add_le (hs.waitPc x hm) (by decide)
    waitPc := nofun
    faultedIff := by simp [hnone]
    faultPc := by simp [hnone] }

theorem Inv.completes (hs : Inv s) (hrun : s.mode = .running) (hpc : s.pc.toNat ≤ 0xFFE) (hc : Completes s i t) :
    Inv t := by
  have hnone : t.fault = none := hc.fault_eq.trans (hs.fault_eq_none (by simp [hrun]))
  exact {
    index := hc.index_le hs.index
    pcBound := hc.pc_le hpc hs.stackBound
    waitPc := fun x hx => by rwa [hc.pc_eq_of_awaiting hrun hx]
    stackBound := hc.stackBounded hpc hs.stackBound
    faultedIff := by simp [hnone, hc.mode_ne_faulted hrun]
    faultPc := by simp [hnone]
    memWf := hc.memWf hs.memWf
    cfgWf := by rw [hc.cfg_eq]; exact hs.cfgWf }

theorem Inv.stepsTo (hs : Inv s) (h : StepsTo s t) : Inv t := by
  cases h with
  | halted | waits => exact hs
  | wakes x k hm => exact hs.completeWait hm k
  | fetchFault | illegal | checkFault => exact hs.raise _ _
  | completes i _ hrun hpc _ _ hc => exact hs.completes hrun hpc hc

/-- Settles O47: the invariant goes through every case of what a step can do. -/
theorem stepsKeepTheInvariant : Obligations.StepsKeepTheInvariant := fun _ _ hs h => hs.stepsTo (stepsTo_of_step h)

/-! ### Runs -/

theorem Inv.load (hs : Inv s) (image : List Byte) : Inv (s.load image) := by
  unfold State.load
  split
  · rw [State.writeBytes_frame]
    exact { hs with memWf := State.writeBytes_memWf s _ image hs.memWf }
  · exact hs.raise _ _

/-- Reset keeps the parameters, and every other part of the invariant holds of the reset values (R260). -/
theorem inv_resetNow (hc : s.cfg.wf = true) : Inv s.resetNow where
  index := Nat.zero_le _
  pcBound := (by decide : State.reset.pc.toNat ≤ 0x1002)
  waitPc := nofun
  stackBound := nofun
  faultedIff := by simp [State.reset]
  faultPc := nofun
  memWf := rfl
  cfgWf := hc

/-- Every transaction answers a next state. The ticks and the keys write no part that the invariant reads. -/
theorem transact_answers (hs : Inv s) (τ : Transaction) : ∃ t, transact τ s = .next t ∧ Inv t := by
  cases τ with
  | step =>
    obtain ⟨t, h, hst⟩ := step_answers s
    exact ⟨t, h, hs.stepsTo hst⟩
  | getKey | readDisplay | readStatus => exact ⟨s, rfl, hs⟩
  | tickTimers | setKey | ackRedraw => exact ⟨_, rfl, { hs with }⟩
  | load image => exact ⟨_, rfl, hs.load image⟩
  | reset => exact ⟨_, rfl, inv_resetNow hs.cfgWf⟩

/-- Settles O48, by induction on the transactions. -/
theorem runsKeepTheInvariant : Obligations.RunsKeepTheInvariant := by
  intro τs
  induction τs with
  | nil => exact fun s hs => ⟨s, rfl, hs⟩
  | cons τ τs ih =>
    intro s hs
    obtain ⟨t, h, ht⟩ := transact_answers hs τ
    rw [runTransactions_cons h]
    exact ih t ht

/-- Settles O46: `State.reset` is its own reset, and the default parameters meet their conditions (R8, R33). -/
theorem resetMeetsTheInvariant : Obligations.ResetMeetsTheInvariant :=
  inv_resetNow (s := State.reset) (by decide)

end Sys2Proof.Machine
end

section
/-! No step reads the sound timer or the redraw flag (R28, R36). -/

namespace Sys2Proof.Machine

/-- The state with another sound timer and another redraw flag. -/
def State.withSound (s : State) (v : Byte) (b : Bool) : State := { s with ST := v, redraw := b }

/-- Both answers are next states, and these differ at most in ST and `redraw`. -/
def AgreeButSound (r r' : StepResult) : Prop := ∃ t v b, r = .next t ∧ r' = .next (t.withSound v b)

variable (s : State) (v : Byte) (b : Bool)

/-! ### The operations commute with the change -/

@[simp] theorem State.withSound_pressedKeys : (s.withSound v b).pressedKeys = s.pressedKeys := rfl
@[simp] theorem State.withSound_fetchWord : (s.withSound v b).fetchWord = s.fetchWord := rfl
@[simp] theorem State.withSound_mode : (s.withSound v b).mode = s.mode := rfl
@[simp] theorem State.withSound_pc : (s.withSound v b).pc = s.pc := rfl
@[simp] theorem State.withSound_draws : (s.withSound v b).draws = s.draws := rfl

theorem State.withSound_raise (k : FaultKind) (w : Option Word) (p : Word) :
    (s.withSound v b).raise k w p = (s.raise k w p).withSound v b := by
  unfold State.raise
  rw [State.withSound_mode]
  split <;> rfl

theorem State.withSound_applyEffect (e : Effect) :
    (s.withSound v b).applyEffect e = (s.applyEffect e).withSound v b := by
  cases e <;> rfl

theorem State.withSound_writeBytes (a : Nat) (bs : List Byte) :
    (s.withSound v b).writeBytes a bs = (s.writeBytes a bs).withSound v b := by
  induction bs generalizing s a with
  | nil => rfl
  | cons c bs ih => exact ih (s.writeByte (addrOf a) c) (a + 1)

theorem State.withSound_writeRegs (k : Nat) (bs : List Byte) :
    (s.withSound v b).writeRegs k bs = (s.writeRegs k bs).withSound v b := by
  induction bs generalizing s k with
  | nil => rfl
  | cons c bs ih => exact ih (s.writeReg (BitVec.ofNat 4 k) c) (k + 1)

/-! ### Answers -/

variable {s v b}

/-- ADD I with the quirk enabled (R12, R171). -/
theorem exec_addI_of_quirk (x : RegIdx) (h : s.cfg.quirkAddIVf = true) :
    exec (.addI x) s = .next (((s.writeI (BitVec.ofNat 16 (indexSum s.I (s.readReg x) % memSize))).writeReg VF
      (flagByte (indexOverflow s.I (s.readReg x)))).applyEffect .next) := by
  simp only [exec, execAddI, if_pos h, State.endWith]

/-- ADD I without the quirk (R12, R171). -/
theorem exec_addI_of_no_quirk (x : RegIdx) (h : ¬s.cfg.quirkAddIVf = true) :
    exec (.addI x) s =
      .next ((s.writeI (BitVec.ofNat 16 (indexSum s.I (s.readReg x) % memSize))).applyEffect .next) := by
  simp only [exec, execAddI, if_neg h, State.endWith]

theorem agreeButSound_raise (k : FaultKind) (w : Option Word) (p : Word) :
    AgreeButSound (.next (s.raise k w p)) (.next ((s.withSound v b).raise k w p)) :=
  ⟨_, v, b, rfl, congrArg _ (State.withSound_raise s v b k w p)⟩

theorem agreeButSound_endWith (e : Effect) : AgreeButSound (s.endWith e) ((s.withSound v b).endWith e) :=
  ⟨_, v, b, rfl, congrArg _ (State.withSound_applyEffect s v b e)⟩

theorem agreeButSound_checkRange {a n : Nat} {i : Instr} {r r' : StepResult} (h : AgreeButSound r r') :
    AgreeButSound (s.checkRange a n i r) ((s.withSound v b).checkRange a n i r') := by
  unfold State.checkRange
  split
  · exact h
  · exact agreeButSound_raise ..

theorem agreeButSound_keySkip (key : Option (Fin 16)) (c : Fin 16 → Bool) (i : Instr) :
    AgreeButSound
      (match key with
      | none => s.raiseBy .keyIndexOutOfRange i
      | some k => s.endWith (skipIf (c k)))
      (match key with
      | none => (s.withSound v b).raiseBy .keyIndexOutOfRange i
      | some k => (s.withSound v b).endWith (skipIf (c k))) := by
  cases key with
  | none => exact agreeButSound_raise ..
  | some k => exact agreeButSound_endWith _

theorem agreeButSound_ret : AgreeButSound (exec .ret s) (exec .ret (s.withSound v b)) := by
  obtain h | h := Nat.eq_zero_or_pos s.SP.val
  · rw [exec_ret_of_zero h, exec_ret_of_zero (s := s.withSound v b) h]
    exact agreeButSound_raise ..
  · exact ⟨_, v, b, exec_ret_of_pos h, exec_ret_of_pos (s := s.withSound v b) h⟩

theorem agreeButSound_call (nnn : Addr) : AgreeButSound (exec (.call nnn) s) (exec (.call nnn) (s.withSound v b)) := by
  obtain h | h := Nat.lt_or_eq_of_le (Fin.is_le s.SP)
  · exact ⟨_, v, b, exec_call_of_lt nnn h, exec_call_of_lt (s := s.withSound v b) nnn h⟩
  · rw [exec_call_of_full nnn h, exec_call_of_full (s := s.withSound v b) nnn h]
    exact agreeButSound_raise ..

theorem agreeButSound_addI (x : RegIdx) : AgreeButSound (exec (.addI x) s) (exec (.addI x) (s.withSound v b)) := by
  by_cases h : s.cfg.quirkAddIVf = true
  · exact ⟨_, v, b, exec_addI_of_quirk x h, exec_addI_of_quirk (s := s.withSound v b) x h⟩
  · exact ⟨_, v, b, exec_addI_of_no_quirk x h, exec_addI_of_no_quirk (s := s.withSound v b) x h⟩

/-- What an instruction answers does not depend on ST or `redraw`. CLS and DRW set `redraw`, LD ST sets ST; after every
other one the two stay as they were. -/
theorem agreeButSound_exec (i : Instr) : AgreeButSound (exec i s) (exec i (s.withSound v b)) := by
  cases i with
  | cls => exact ⟨_, v, true, rfl, rfl⟩
  | ldStVx x => exact ⟨_, s.readReg x, b, rfl, rfl⟩
  | drw => exact agreeButSound_checkRange ⟨_, v, true, rfl, rfl⟩
  | ldB => exact agreeButSound_checkRange ⟨_, v, b, rfl, by rw [State.withSound_writeBytes]; rfl⟩
  | storeRegs => exact agreeButSound_checkRange ⟨_, v, b, rfl, by rw [State.withSound_writeBytes]; rfl⟩
  | loadRegs => exact agreeButSound_checkRange ⟨_, v, b, rfl, by rw [State.withSound_writeRegs]; rfl⟩
  | ret => exact agreeButSound_ret
  | call nnn => exact agreeButSound_call nnn
  | skp x => exact agreeButSound_keySkip (keyOperand (s.readReg x)) (fun k => s.readKey k) (.skp x)
  | sknp x => exact agreeButSound_keySkip (keyOperand (s.readReg x)) (fun k => !s.readKey k) (.sknp x)
  | addI x => exact agreeButSound_addI x
  | seByte | sneByte | seReg | sneReg => exact agreeButSound_endWith _
  | _ => exact ⟨_, v, b, rfl, rfl⟩

theorem agreeButSound_keyWait (x : RegIdx) : AgreeButSound (keyWait x s) (keyWait x (s.withSound v b)) := by
  unfold keyWait keyWaitWith
  rw [State.withSound_pressedKeys, State.withSound_draws]
  split <;> exact ⟨_, v, b, rfl, rfl⟩

theorem agreeButSound_step : AgreeButSound (step s) (step (s.withSound v b)) := by
  cases h : s.mode with
  | faulted => exact ⟨s, v, b, step_faulted h, step_faulted (s := s.withSound v b) h⟩
  | awaitingKey x =>
    rw [step_awaiting h, step_awaiting (s := s.withSound v b) h]
    exact agreeButSound_keyWait x
  | running =>
    obtain hpc | hpc := Nat.lt_or_ge 0xFFE s.pc.toNat
    · rw [step_of_not_fetchable h hpc, step_of_not_fetchable (s := s.withSound v b) h hpc]
      exact agreeButSound_raise ..
    cases hd : decode s.fetchWord with
    | unknown w =>
      rw [step_of_unknown h hpc hd, step_of_unknown (s := s.withSound v b) h hpc hd]
      exact agreeButSound_raise ..
    | instr i =>
      rw [step_of_instr h hpc hd, step_of_instr (s := s.withSound v b) h hpc hd]
      exact agreeButSound_exec i

/-- Settles O45, from the agreement of the two steps in every mode. -/
theorem stepsDoNotReadSoundTimerOrRedraw : Obligations.StepsDoNotReadSoundTimerOrRedraw := by
  intro s t v b h
  obtain ⟨u, v', b', hu, hu'⟩ := agreeButSound_step (s := s) (v := v) (b := b)
  cases hu.symm.trans h
  exact ⟨_, hu', rfl⟩

end Sys2Proof.Machine
end

section
/-! Memory in canonical form (R50, R58, log 17), who stores to it (R55), and the fetch of stored bytes (R52, R65). -/

namespace Sys2Proof.Machine

/-! ### Canonical form -/

section
variable {c : Config} {m m' : Memory} {lo k a : Nat} {v : Byte}

theorem Memory.wfFrom_cons : Memory.wfFrom c lo ((k, v) :: m) = true ↔
    lo ≤ k ∧ k < memSize ∧ v ≠ c.resetByte k ∧ Memory.wfFrom c (k + 1) m = true := by
  simp [Memory.wfFrom, and_assoc]

/-- Addresses rise from `lo`, so none below it is listed. -/
theorem Memory.lookup_of_lt (h : Memory.wfFrom c lo m = true) (ha : a < lo) : Memory.lookup m a = none := by
  induction m generalizing lo with
  | nil => rfl
  | cons kv m ih =>
    obtain ⟨hlo, -, -, htail⟩ := Memory.wfFrom_cons.1 h
    rw [Memory.lookup, if_neg (by omega)]
    exact ih htail (by omega)

/-- No address outside the address space is listed (R50). -/
theorem Memory.lookup_of_memSize_le (h : Memory.wfFrom c lo m = true) (ha : memSize ≤ a) :
    Memory.lookup m a = none := by
  induction m generalizing lo with
  | nil => rfl
  | cons kv m ih =>
    obtain ⟨-, hk, -, htail⟩ := Memory.wfFrom_cons.1 h
    rw [Memory.lookup, if_neg (by omega)]
    exact ih htail

/-- A canonical memory lists exactly the bytes that differ from the reset content of their address (R32). -/
theorem Memory.lookup_eq_some_iff (h : m.wf c = true) (a : Addr) :
    Memory.lookup m a.toNat = some v ↔ Memory.read c m a = v ∧ v ≠ c.resetByte a.toNat := by
  unfold Memory.read
  cases hl : Memory.lookup m a.toNat with
  | none => simpa using fun h => h.symm
  | some u =>
    have hu : u ≠ c.resetByte a.toNat := Memory.lookup_ne_reset c 0 m h _ u hl
    simpa using fun e : u = v => e ▸ hu

theorem Memory.lookup_eq_of_read_eq (h : m.wf c = true) (h' : m'.wf c = true)
    (hread : ∀ a, Memory.read c m a = Memory.read c m' a) (a : Nat) : Memory.lookup m a = Memory.lookup m' a := by
  obtain ha | ha := Nat.lt_or_ge a memSize
  · rw [← addrOf_toNat a ha]
    ext v
    rw [Memory.lookup_eq_some_iff h, Memory.lookup_eq_some_iff h', hread]
  · rw [Memory.lookup_of_memSize_le h ha, Memory.lookup_of_memSize_le h' ha]

/-- The head of a rising list is its lowest listed address. -/
theorem Memory.head_le (h : Memory.wfFrom c lo ((k, v) :: m) = true) {u : Byte}
    (ha : Memory.lookup ((k, v) :: m) a = some u) : k ≤ a := by
  have hfrom : Memory.wfFrom c k ((k, v) :: m) = true :=
    Memory.wfFrom_cons.2 ⟨Nat.le_refl k, (Memory.wfFrom_cons.1 h).2⟩
  by_contra hlt
  cases (Memory.lookup_of_lt hfrom (Nat.lt_of_not_le hlt)).symm.trans ha

theorem Memory.lookup_head : Memory.lookup ((k, v) :: m) k = some v := if_pos rfl

/-- Rising lists of cells that look up the same are the same, by induction on the first: the heads are the lowest listed
addresses, and no tail lists its head's address. -/
theorem Memory.eq_of_lookup_eq {lo' : Nat} (h : Memory.wfFrom c lo m = true) (h' : Memory.wfFrom c lo' m' = true)
    (hl : ∀ a, Memory.lookup m a = Memory.lookup m' a) : m = m' := by
  induction m generalizing lo lo' m' with
  | nil =>
    cases m' with
    | nil => rfl
    | cons kv' m' => cases (hl kv'.1).trans Memory.lookup_head
  | cons kv m ih =>
    obtain ⟨k, v⟩ := kv
    cases m' with
    | nil => cases (hl k).symm.trans Memory.lookup_head
    | cons kv' m' =>
      obtain ⟨k', v'⟩ := kv'
      have hk : k = k' := Nat.le_antisymm (Memory.head_le h ((hl k').trans Memory.lookup_head))
        (Memory.head_le h' ((hl k).symm.trans Memory.lookup_head))
      subst hk
      have hv : v = v' := by simpa [Memory.lookup] using hl k
      obtain ⟨-, -, -, htail⟩ := Memory.wfFrom_cons.1 h
      obtain ⟨-, -, -, htail'⟩ := Memory.wfFrom_cons.1 h'
      have htails : m = m' := ih htail htail' fun a => by
        obtain rfl | ha := eq_or_ne k a
        · rw [Memory.lookup_of_lt htail (Nat.lt_succ_self k), Memory.lookup_of_lt htail' (Nat.lt_succ_self k)]
        · simpa [Memory.lookup, ha] using hl a
      rw [hv, htails]

end

/-- Settles O33: equal reads give equal listings, and a canonical list is determined by what it lists. -/
theorem canonicalMemoriesAreEqualWhenTheyReadEqual : Obligations.CanonicalMemoriesAreEqualWhenTheyReadEqual :=
  fun _ _ _ h h' hread => Memory.eq_of_lookup_eq h h' (Memory.lookup_eq_of_read_eq h h' hread)

/-! ### Who stores -/

variable {s t : State} {i : Instr}

theorem storesBytes_eq_false (hldB : ∀ x, i ≠ .ldB x) (hstore : ∀ x, i ≠ .storeRegs x) : storesBytes i = false := by
  cases i with
  | ldB x => exact absurd rfl (hldB x)
  | storeRegs x => exact absurd rfl (hstore x)
  | _ => rfl

theorem Completes.mem_eq (h : Completes s i t) (hi : storesBytes i = false) : t.mem = s.mem := by
  cases h with
  | store _ _ h => cases hi.symm.trans h
  | _ => simp

/-- Settles O42: a fault writes no byte, and a completion stores only for the two instructions excluded. -/
theorem onlyBcdAndRegisterDumpWriteMemory : Obligations.OnlyBcdAndRegisterDumpWriteMemory := by
  intro i s t h hldB hstore
  obtain ⟨k, -, rfl⟩ | ⟨-, hc⟩ := exec_cases h
  · exact State.readByte_congr (State.raise_mem s _ _ _) (State.raise_cfg s _ _ _)
  · exact State.readByte_congr (hc.mem_eq (storesBytes_eq_false hldB hstore)) hc.cfg_eq

/-! ### The fetch of stored bytes -/

/-- A store inside memory is read back byte by byte. -/
theorem State.readByte_writeBytes_add (s : State) {a k : Nat} {bs : List Byte} {b : Byte}
    (hr : a + bs.length ≤ 4096) (hk : bs[k]? = some b) : (s.writeBytes a bs).readByte (addrOf (a + k)) = b := by
  obtain ⟨hlt, -⟩ := List.getElem?_eq_some_iff.1 hk
  have haddr : (addrOf (a + k)).toNat = a + k := addrOf_toNat _ (by omega)
  rw [State.readByte_writeBytes s a bs hr, haddr, if_pos (Nat.le_add_right a k), Nat.add_sub_cancel_left, hk]
  rfl

/-- In a state whose memory is that of a store at its `pc`, the fetch reads the first two bytes stored (R52, R65). -/
theorem fetchWord_of_writeBytes {bs : List Byte} {hi lo : Byte}
    (hmem : t.mem = (s.writeBytes t.pc.toNat bs).mem) (hcfg : t.cfg = s.cfg)
    (hr : t.pc.toNat + bs.length ≤ 4096) (hhi : bs[0]? = some hi) (hlo : bs[1]? = some lo) :
    t.fetchWord = joinBytes hi lo := by
  have hread := State.readByte_congr hmem (hcfg.trans (State.writeBytes_cfg s _ _).symm)
  rw [State.fetchWord, hread, hread, State.readByte_writeBytes_add s hr hlo]
  congr 1
  exact State.readByte_writeBytes_add s hr hhi

/-- A register dump inside memory (R174). -/
theorem exec_storeRegs_of_le {x : RegIdx} (h : s.I.toNat + x.toNat ≤ 0xFFF) :
    exec (.storeRegs x) s = .next ((s.writeBytes s.I.toNat (s.regList x)).applyEffect .next) :=
  State.checkRange_in s (by unfold regCount; omega)

/-- Settles O32: the dump stores V0 and V1 where the next `pc` points. -/
theorem storedBytesAreFetchedNext : Obligations.StoredBytesAreFetchedNext := by
  intro s x hx hI hr
  have hIpc : s.I.toNat = s.pc.toNat + 2 := by rw [hI]; bv_omega
  refine ⟨_, exec_storeRegs_of_le (by omega), ?_⟩
  refine fetchWord_of_writeBytes (s := s) (bs := s.regList x) ?_ (by simp) ?_ ?_ ?_
  · simp [hI]
  · rw [State.regList_length, State.applyEffect_next_pc, State.writeBytes_pc, ← hI]
    omega
  · rw [State.regList_getElem?, if_pos (Nat.zero_le _)]
    rfl
  · rw [State.regList_getElem?, if_pos hx]
    rfl

/-! ### A word placed at `pc` -/

theorem decode_of_decodeTableWord {nbits w : Nat} (h : decodeTableWord nbits w = some i) :
    decode (tableWord nbits w) = .instr i := by
  simp only [decodeTableWord, decodeBytes, joinBytes_bytes] at h
  split at h
  · next heq => cases h; exact congrArg Prod.fst (Option.some.inj heq)
  · cases h

theorem fetchPlace_le (s : State) : (fetchPlace s).toNat ≤ 0xFFE := by
  unfold fetchPlace
  split
  · next h => exact fetchable_iff.1 h
  · decide

theorem State.fetchWord_withFetchWord (s : State) (nbits w : Nat) :
    (s.withFetchWord nbits w).fetchWord = tableWord nbits w := by
  have hr : (fetchPlace s).toNat + 2 ≤ 4096 := Nat.add_le_add_right (fetchPlace_le s) 2
  rw [fetchWord_of_writeBytes (s := s) (t := s.withFetchWord nbits w) rfl (State.writeBytes_cfg s _ _) hr rfl rfl,
    joinBytes_bytes]

/-- Settles O13: the placed word is fetched and decodes to `i`, in mode Running at a fetchable `pc`. -/
theorem placedWordIsRunNext : Obligations.PlacedWordIsRunNext := by
  intro s w i h
  have hd : decode (s.withFetchWord 16 w).fetchWord = .instr i := by
    rw [State.fetchWord_withFetchWord, decode_of_decodeTableWord h]
  exact step_of_instr rfl (fetchPlace_le s) hd

end Sys2Proof.Machine
end

section
/-! The decoder, the encoder and the opcode table agree. Every word is the word of an instruction or in the illegal set
(R76 to R81), the decoder inverts the encoder on the first and rejects the second, and no word is of two rows (R75). -/

namespace Sys2Proof

variable {w : Word} {op n : Nibble} {kk : Byte} {r r' : OpRow}

/-! ### The decoder on the word of an instruction -/

/-- The decoder reads back every instruction from its word, family by family. -/
theorem decode_encode (i : Instr) : decode (encode i) = .instr i := by
  cases i with
  | cls | ret => rfl
  | jp | call | ldI | jpV0 => simp [encode, decode_op1, decode_op2, decode_opA, decode_opB]
  | seByte | sneByte | ldByte | addByte | rnd =>
    simp [encode, decode_op3, decode_op4, decode_op6, decode_op7, decode_opC]
  | seReg | sneReg | drw => simp [encode, decode_op5, decode_op9, decode_opD]
  | ldReg | orReg | andReg | xorReg | addReg | subReg | shr | subn | shl =>
    simp [encode, decode_op8, decodeFamily8]
  | skp | sknp => simp [encode, decode_opE, decodeFamilyE]
  | ldVxDt | ldVxK | ldDtVx | ldStVx | addI | ldF | ldB | storeRegs | loadRegs =>
    simp [encode, decode_opF, decodeFamilyF]

/-- Settles O2, by the decoder's equation for each family. -/
theorem decodeOfEncodeIsTheInstruction : Obligations.DecodeOfEncodeIsTheInstruction := decode_encode

/-! ### The illegal set -/

/-- The words that no family takes (R76, R78 to R81, R83). -/
def IsIllegal (w : Word) : Prop :=
  (opField w = 0x0 ∧ w ≠ 0x00E0 ∧ w ≠ 0x00EE) ∨
  ((opField w = 0x5 ∨ opField w = 0x9) ∧ nField w ≠ 0) ∨
  (opField w = 0x8 ∧ nField w ∈ [0x8, 0x9, 0xA, 0xB, 0xC, 0xD, 0xF]) ∨
  (opField w = 0xE ∧ kkField w ∉ [0x9E, 0xA1]) ∨
  (opField w = 0xF ∧ kkField w ∉ [0x07, 0x0A, 0x15, 0x18, 0x1E, 0x29, 0x33, 0x55, 0x65])

theorem decodeFamily0_of_ne (hcls : w ≠ 0x00E0) (hret : w ≠ 0x00EE) : decodeFamily0 w = .unknown w := by
  rw [decodeFamily0, if_neg hcls, if_neg hret]

theorem decodeFamily8_of_mem (hn : nField w ∈ [0x8, 0x9, 0xA, 0xB, 0xC, 0xD, 0xF]) :
    decodeFamily8 w = .unknown w := by
  unfold decodeFamily8
  generalize nField w = n at hn ⊢
  fin_cases hn <;> rfl

theorem decodeFamilyE_of_not_mem (hk : kkField w ∉ [0x9E, 0xA1]) : decodeFamilyE w = .unknown w := by
  unfold decodeFamilyE
  split <;> simp_all

theorem decodeFamilyF_of_not_mem
    (hk : kkField w ∉ [0x07, 0x0A, 0x15, 0x18, 0x1E, 0x29, 0x33, 0x55, 0x65]) : decodeFamilyF w = .unknown w := by
  unfold decodeFamilyF
  split <;> simp_all

theorem decode_of_isIllegal (h : IsIllegal w) : decode w = .unknown w := by
  obtain ⟨hop, hcls, hret⟩ | ⟨hop | hop, hn⟩ | ⟨hop, hn⟩ | ⟨hop, hk⟩ | ⟨hop, hk⟩ := h
  · rw [decode_op0 w hop, decodeFamily0_of_ne hcls hret]
  · rw [decode_op5 w hop, if_neg hn]
  · rw [decode_op9 w hop, if_neg hn]
  · rw [decode_op8 w hop, decodeFamily8_of_mem hn]
  · rw [decode_opE w hop, decodeFamilyE_of_not_mem hk]
  · rw [decode_opF w hop, decodeFamilyF_of_not_mem hk]

/-! ### Every word outside the illegal set is the word of an instruction -/

theorem wordNNN_of_op (hop : opField w = op) : wordNNN op (nnnField w) = w := hop ▸ wordNNN_fields w

theorem wordXKK_of_op (hop : opField w = op) : wordXKK op (xField w) (kkField w) = w := hop ▸ wordXKK_fields w

theorem wordXKK_of_op_kk (hop : opField w = op) (hk : kkField w = kk) : wordXKK op (xField w) kk = w :=
  hk ▸ wordXKK_of_op hop

theorem wordXYN_of_op (hop : opField w = op) : wordXYN op (xField w) (yField w) (nField w) = w :=
  hop ▸ wordXYN_fields w

theorem wordXYN_of_op_n (hop : opField w = op) (hn : nField w = n) : wordXYN op (xField w) (yField w) n = w :=
  hn ▸ wordXYN_of_op hop

theorem aluNibble_cases (n : Nibble) :
    n = 0x0 ∨ n = 0x1 ∨ n = 0x2 ∨ n = 0x3 ∨ n = 0x4 ∨ n = 0x5 ∨ n = 0x6 ∨ n = 0x7 ∨ n = 0xE ∨
      n ∈ [0x8, 0x9, 0xA, 0xB, 0xC, 0xD, 0xF] := by revert n; decide

theorem exists_encode_or_isIllegal_of_op0 (hop : opField w = 0x0) : (∃ i, encode i = w) ∨ IsIllegal w := by
  obtain rfl | hcls := eq_or_ne w 0x00E0
  · exact .inl ⟨.cls, rfl⟩
  obtain rfl | hret := eq_or_ne w 0x00EE
  · exact .inl ⟨.ret, rfl⟩
  exact .inr (.inl ⟨hop, hcls, hret⟩)

theorem exists_encode_or_isIllegal_of_op5 (hop : opField w = 0x5) : (∃ i, encode i = w) ∨ IsIllegal w := by
  obtain hn | hn := eq_or_ne (nField w) 0
  · exact .inl ⟨.seReg _ _, wordXYN_of_op_n hop hn⟩
  · exact .inr (.inr (.inl ⟨.inl hop, hn⟩))

theorem exists_encode_or_isIllegal_of_op9 (hop : opField w = 0x9) : (∃ i, encode i = w) ∨ IsIllegal w := by
  obtain hn | hn := eq_or_ne (nField w) 0
  · exact .inl ⟨.sneReg _ _, wordXYN_of_op_n hop hn⟩
  · exact .inr (.inr (.inl ⟨.inr hop, hn⟩))

theorem exists_encode_or_isIllegal_of_op8 (hop : opField w = 0x8) : (∃ i, encode i = w) ∨ IsIllegal w := by
  obtain hn | hn | hn | hn | hn | hn | hn | hn | hn | hn := aluNibble_cases (nField w)
  · exact .inl ⟨.ldReg _ _, wordXYN_of_op_n hop hn⟩
  · exact .inl ⟨.orReg _ _, wordXYN_of_op_n hop hn⟩
  · exact .inl ⟨.andReg _ _, wordXYN_of_op_n hop hn⟩
  · exact .inl ⟨.xorReg _ _, wordXYN_of_op_n hop hn⟩
  · exact .inl ⟨.addReg _ _, wordXYN_of_op_n hop hn⟩
  · exact .inl ⟨.subReg _ _, wordXYN_of_op_n hop hn⟩
  · exact .inl ⟨.shr _ _, wordXYN_of_op_n hop hn⟩
  · exact .inl ⟨.subn _ _, wordXYN_of_op_n hop hn⟩
  · exact .inl ⟨.shl _ _, wordXYN_of_op_n hop hn⟩
  · exact .inr (.inr (.inr (.inl ⟨hop, hn⟩)))

theorem exists_encode_or_isIllegal_of_opE (hop : opField w = 0xE) : (∃ i, encode i = w) ∨ IsIllegal w := by
  by_cases hk : kkField w ∈ [0x9E, 0xA1]
  · simp only [List.mem_cons, List.not_mem_nil, or_false] at hk
    obtain hk | hk := hk
    · exact .inl ⟨.skp _, wordXKK_of_op_kk hop hk⟩
    · exact .inl ⟨.sknp _, wordXKK_of_op_kk hop hk⟩
  · exact .inr (.inr (.inr (.inr (.inl ⟨hop, hk⟩))))

theorem exists_encode_or_isIllegal_of_opF (hop : opField w = 0xF) : (∃ i, encode i = w) ∨ IsIllegal w := by
  by_cases hk : kkField w ∈ [0x07, 0x0A, 0x15, 0x18, 0x1E, 0x29, 0x33, 0x55, 0x65]
  · simp only [List.mem_cons, List.not_mem_nil, or_false] at hk
    obtain hk | hk | hk | hk | hk | hk | hk | hk | hk := hk
    · exact .inl ⟨.ldVxDt _, wordXKK_of_op_kk hop hk⟩
    · exact .inl ⟨.ldVxK _, wordXKK_of_op_kk hop hk⟩
    · exact .inl ⟨.ldDtVx _, wordXKK_of_op_kk hop hk⟩
    · exact .inl ⟨.ldStVx _, wordXKK_of_op_kk hop hk⟩
    · exact .inl ⟨.addI _, wordXKK_of_op_kk hop hk⟩
    · exact .inl ⟨.ldF _, wordXKK_of_op_kk hop hk⟩
    · exact .inl ⟨.ldB _, wordXKK_of_op_kk hop hk⟩
    · exact .inl ⟨.storeRegs _, wordXKK_of_op_kk hop hk⟩
    · exact .inl ⟨.loadRegs _, wordXKK_of_op_kk hop hk⟩
  · exact .inr (.inr (.inr (.inr (.inr ⟨hop, hk⟩))))

/-- The families by their top nibble (R72): those that compare no more take every word. -/
theorem exists_encode_or_isIllegal (w : Word) : (∃ i, encode i = w) ∨ IsIllegal w := by
  obtain hop | hop | hop | hop | hop | hop | hop | hop | hop | hop | hop | hop | hop | hop | hop | hop :=
    nibble_cases (opField w)
  · exact exists_encode_or_isIllegal_of_op0 hop
  · exact .inl ⟨.jp _, wordNNN_of_op hop⟩
  · exact .inl ⟨.call _, wordNNN_of_op hop⟩
  · exact .inl ⟨.seByte _ _, wordXKK_of_op hop⟩
  · exact .inl ⟨.sneByte _ _, wordXKK_of_op hop⟩
  · exact exists_encode_or_isIllegal_of_op5 hop
  · exact .inl ⟨.ldByte _ _, wordXKK_of_op hop⟩
  · exact .inl ⟨.addByte _ _, wordXKK_of_op hop⟩
  · exact exists_encode_or_isIllegal_of_op8 hop
  · exact exists_encode_or_isIllegal_of_op9 hop
  · exact .inl ⟨.ldI _, wordNNN_of_op hop⟩
  · exact .inl ⟨.jpV0 _, wordNNN_of_op hop⟩
  · exact .inl ⟨.rnd _ _, wordXKK_of_op hop⟩
  · exact .inl ⟨.drw _ _ _, wordXYN_of_op hop⟩
  · exact exists_encode_or_isIllegal_of_opE hop
  · exact exists_encode_or_isIllegal_of_opF hop

/-- What the decoder answers on any word. -/
theorem decode_cases (w : Word) :
    (∃ i, encode i = w ∧ decode w = .instr i) ∨ (IsIllegal w ∧ decode w = .unknown w) := by
  obtain ⟨i, rfl⟩ | h := exists_encode_or_isIllegal w
  · exact .inl ⟨i, rfl, decode_encode i⟩
  · exact .inr ⟨h, decode_of_isIllegal h⟩

theorem encode_of_decode {i : Instr} (h : decode w = .instr i) : encode i = w := by
  obtain ⟨j, hj, hd⟩ | ⟨-, hd⟩ := decode_cases w
  · cases hd.symm.trans h; exact hj
  · cases hd.symm.trans h

theorem decode_eq_unknown_iff : decode w = .unknown w ↔ IsIllegal w := by
  refine ⟨fun h => ?_, decode_of_isIllegal⟩
  obtain ⟨_, -, hd⟩ | ⟨hw, -⟩ := decode_cases w
  · cases hd.symm.trans h
  · exact hw

/-- Settles O3: the two answers of the decoder are exclusive, and the first one names the word. -/
theorem encodeOfDecodeIsTheWord : Obligations.EncodeOfDecodeIsTheWord := fun _ _ => encode_of_decode

/-- Settles O4, from the two answers the decoder has. -/
theorem unknownWordsAreExactlyTheIllegalSet : Obligations.UnknownWordsAreExactlyTheIllegalSet :=
  fun w => ⟨(decode_cases w).imp (fun ⟨i, _, hd⟩ => ⟨i, hd⟩) And.right, decode_eq_unknown_iff⟩

/-- Settles O1, by running the decoder on each closed word. -/
theorem writtenWordsDecode : Obligations.WrittenWordsDecode := by
  unfold Obligations.WrittenWordsDecode
  decide

/-! ### The opcode table -/

theorem OpRow.fits_iff : r.fits w = true ↔ w &&& r.mask = r.pattern := beq_iff_eq

/-- Two rows that agree on the bits both fix are one row. -/
theorem eq_of_agree : ∀ r ∈ opcodeTable, ∀ r' ∈ opcodeTable,
    r.pattern &&& r'.mask = r'.pattern &&& r.mask → r = r' := by decide

/-- A word is of at most one row (R75). -/
theorem eq_of_fits (hr : r ∈ opcodeTable) (hr' : r' ∈ opcodeTable) (h : r.fits w = true) (h' : r'.fits w = true) :
    r = r' := by
  refine eq_of_agree r hr r' hr' ?_
  rw [← OpRow.fits_iff.1 h, ← OpRow.fits_iff.1 h', BitVec.and_assoc, BitVec.and_assoc, BitVec.and_comm r.mask]

theorem opcodeTable_nodup : opcodeTable.Nodup := by decide

theorem length_rows_of_word_le_one (w : Word) : (opcodeTable.filter fun r => r.fits w).length ≤ 1 := by
  have hnodup := opcodeTable_nodup.filter fun r => r.fits w
  rw [← List.toFinset_card_of_nodup hnodup, Finset.card_le_one]
  intro r hr r' hr'
  simp only [List.mem_toFinset, List.mem_filter] at hr hr'
  exact eq_of_fits hr.1 hr'.1 hr.2 hr'.2

section

open Laws.TableRow

/-- Each instruction's row is in the table and its word is of that row (R72, R75). -/
theorem tableRow_statement : ∀ i : Instr, Statement i
  | .cls => cls
  | .ret => ret
  | .jp nnn => jp nnn
  | .call nnn => call nnn
  | .seByte x kk => seByte x kk
  | .sneByte x kk => sneByte x kk
  | .seReg x y => seReg x y
  | .ldByte x kk => ldByte x kk
  | .addByte x kk => addByte x kk
  | .ldReg x y => ldReg x y
  | .orReg x y => orReg x y
  | .andReg x y => andReg x y
  | .xorReg x y => xorReg x y
  | .addReg x y => addReg x y
  | .subReg x y => subReg x y
  | .shr x y => shr x y
  | .subn x y => subn x y
  | .shl x y => shl x y
  | .sneReg x y => sneReg x y
  | .ldI nnn => ldI nnn
  | .jpV0 nnn => jpV0 nnn
  | .rnd x kk => rnd x kk
  | .drw x y n => drw x y n
  | .skp x => skp x
  | .sknp x => sknp x
  | .ldVxDt x => ldVxDt x
  | .ldVxK x => ldVxK x
  | .ldDtVx x => ldDtVx x
  | .ldStVx x => ldStVx x
  | .addI x => addI x
  | .ldF x => ldF x
  | .ldB x => ldB x
  | .storeRegs x => storeRegs x
  | .loadRegs x => loadRegs x

end

/-! Each row fixes the top nibble and the bits that its family compares (R76 to R81). -/

theorem opField_mask : ∀ r ∈ opcodeTable, opField r.mask = 0xF := by decide

theorem mask_of_op0 : ∀ r ∈ opcodeTable, opField r.pattern = 0x0 → r.mask = 0xFFFF := by decide

theorem nField_mask : ∀ r ∈ opcodeTable, opField r.pattern ∈ [0x5, 0x8, 0x9] → nField r.mask = 0xF := by decide

theorem kkField_mask : ∀ r ∈ opcodeTable, opField r.pattern ∈ [0xE, 0xF] → kkField r.mask = 0xFF := by decide

theorem decode_pattern : ∀ r ∈ opcodeTable, decode r.pattern ≠ .unknown r.pattern := by decide

theorem opField_pattern (hr : r ∈ opcodeTable) (h : r.fits w = true) : opField r.pattern = opField w := by
  rw [← OpRow.fits_iff.1 h, opField_and, opField_mask r hr]
  exact BitVec.and_allOnes

theorem eq_pattern_of_op0 (hr : r ∈ opcodeTable) (h : r.fits w = true) (hop : opField w = 0x0) : r.pattern = w := by
  rw [← OpRow.fits_iff.1 h, mask_of_op0 r hr ((opField_pattern hr h).trans hop)]
  exact BitVec.and_allOnes

theorem nField_pattern (hr : r ∈ opcodeTable) (h : r.fits w = true) (hop : opField w ∈ [0x5, 0x8, 0x9]) :
    nField r.pattern = nField w := by
  rw [← opField_pattern hr h] at hop
  rw [← OpRow.fits_iff.1 h, nField_and, nField_mask r hr hop]
  exact BitVec.and_allOnes

theorem kkField_pattern (hr : r ∈ opcodeTable) (h : r.fits w = true) (hop : opField w ∈ [0xE, 0xF]) :
    kkField r.pattern = kkField w := by
  rw [← opField_pattern hr h] at hop
  rw [← OpRow.fits_iff.1 h, kkField_and, kkField_mask r hr hop]
  exact BitVec.and_allOnes

/-- What makes a word illegal is among the bits a row fixes, so the row's pattern would be illegal with it. -/
theorem isIllegal_pattern (hr : r ∈ opcodeTable) (h : r.fits w = true) (hw : IsIllegal w) : IsIllegal r.pattern := by
  have hop := opField_pattern hr h
  unfold IsIllegal
  rw [hop]
  obtain ⟨h0, hne⟩ | ⟨h59, hn⟩ | ⟨h8, hn⟩ | ⟨hE, hk⟩ | ⟨hF, hk⟩ := hw
  · rw [eq_pattern_of_op0 hr h h0]
    exact .inl ⟨h0, hne⟩
  · rw [nField_pattern hr h (by obtain h | h := h59 <;> simp [h])]
    exact .inr (.inl ⟨h59, hn⟩)
  · rw [nField_pattern hr h (by simp [h8])]
    exact .inr (.inr (.inl ⟨h8, hn⟩))
  · rw [kkField_pattern hr h (by simp [hE])]
    exact .inr (.inr (.inr (.inl ⟨hE, hk⟩)))
  · rw [kkField_pattern hr h (by simp [hF])]
    exact .inr (.inr (.inr (.inr ⟨hF, hk⟩)))

theorem not_isIllegal_of_fits (hr : r ∈ opcodeTable) (h : r.fits w = true) : ¬IsIllegal w := fun hw =>
  decode_pattern r hr (decode_of_isIllegal (isIllegal_pattern hr h hw))

theorem wordWf_iff : wordWf w = true ↔ ∃ r ∈ opcodeTable, r.fits w = true := List.any_eq_true

theorem fits_row_of_decode {i : Instr} (h : decode w = .instr i) : i.row ∈ opcodeTable ∧ i.row.fits w = true :=
  encode_of_decode h ▸ tableRow_statement i

theorem wordWf_iff_decode : wordWf w = true ↔ ∃ i, decode w = .instr i := by
  rw [wordWf_iff]
  constructor
  · rintro ⟨r, hr, h⟩
    obtain ⟨i, -, hd⟩ | ⟨hw, -⟩ := decode_cases w
    · exact ⟨i, hd⟩
    · exact absurd hw (not_isIllegal_of_fits hr h)
  · rintro ⟨i, hd⟩
    exact ⟨i.row, fits_row_of_decode hd⟩

/-- Settles O5: illegal words fit no row, and a word fits at most one, so the row is that of the instruction it decodes
to. -/
theorem decoderAgreesWithTheOpcodeTable : Obligations.DecoderAgreesWithTheOpcodeTable := fun w =>
  ⟨wordWf_iff_decode,
   fun _ hd _ hr h =>
    have ⟨hrow, hfits⟩ := fits_row_of_decode hd
    eq_of_fits hr hrow h hfits,
   length_rows_of_word_le_one w⟩

end Sys2Proof
end

section
/-! The step by mode: the fetch and its two faults, the check of each instruction, Faulted and the key wait (R100 to R108,
R206, R220, R226). -/

namespace Sys2Proof.Machine

variable {s t : State} {x : RegIdx}

/-! ### The fetch (R101 to R103) -/

/-- The fetched word in the terms of R52: the byte at `pc` is the high byte. -/
theorem State.fetchWord_eq (s : State) :
    s.fetchWord =
      (s.readByte (BitVec.ofNat 12 s.pc.toNat) ++ s.readByte (BitVec.ofNat 12 (s.pc.toNat + 1)) : BitVec 16) := rfl

/-- Outside Faulted, raising a fault at the current `pc` is the faulted state with that record (R221). -/
theorem faultedWith_raise (h : s.mode ≠ .faulted) (k : FaultKind) (w : Option Word) :
    FaultedWith s (s.raise k w s.pc) k w := State.raise_of_not_faulted s h

theorem mode_ne_faulted_of_running (h : s.mode = .running) : s.mode ≠ .faulted := by simp [h]

/-- Settles O6: the two bytes at `pc` are the fetched word. -/
theorem stepRunsTheDecodedInstruction : Obligations.StepRunsTheDecodedInstruction := by
  intro s i hrun hpc hd
  rw [← s.fetchWord_eq] at hd
  exact step_of_instr hrun hpc hd

/-- Settles O7: the fetched word decodes to Unknown, and Running is not Faulted. -/
theorem illegalWordRaisesUnknownOpcode : Obligations.IllegalWordRaisesUnknownOpcode := by
  intro s w hrun hpc hw hd
  rw [← s.fetchWord_eq] at hw
  subst hw
  exact ⟨_, step_of_unknown hrun hpc hd, faultedWith_raise (mode_ne_faulted_of_running hrun) _ _⟩

/-- Settles O8: nothing can be fetched above 0xFFE, and Running is not Faulted. -/
theorem fetchAboveMemoryFaults : Obligations.FetchAboveMemoryFaults := fun _ hrun hpc =>
  ⟨_, step_of_not_fetchable hrun hpc, faultedWith_raise (mode_ne_faulted_of_running hrun) _ _⟩

/-! ### The checks of the instructions, and the answer of a step (R107, R220, R227) -/

/-- Settles O11, from what executing an instruction answers: the fault of its check, or a completion. -/
theorem instructionsFaultExactlyWhenTheirCheckFails :
    Obligations.InstructionsFaultExactlyWhenTheirCheckFails := by
  intro i s hrun
  obtain ⟨k, hf, he⟩ | ⟨hf, t, he, hc⟩ := exec_answers (s := s) i
  · rw [hf]
    exact ⟨_, he, faultedWith_raise (mode_ne_faulted_of_running hrun) k _⟩
  · rw [hf]
    exact ⟨t, he, hc.mode_ne_faulted hrun, hc.fault_eq⟩

/-- Settles O12, from what a step answers in each mode. -/
theorem everyStepAnswersANextState : Obligations.EveryStepAnswersANextState := fun s =>
  have ⟨t, h, _⟩ := step_answers s
  ⟨t, h⟩

/-! ### Faulted (R100, R226) -/

/-- An accepted image writes memory only, and the fault of an oversized one does not replace the record (R221, R262). -/
theorem State.load_of_faulted (h : s.mode = .faulted) (image : List Byte) :
    (s.load image).mode = .faulted ∧ (s.load image).fault = s.fault := by
  unfold State.load
  split
  · simp [h]
  · rw [State.raise_of_faulted s h]
    exact ⟨h, rfl⟩

theorem faulted_kept_by_transact {τ : Transaction} (h : s.mode = .faulted) (hτ : τ ≠ .reset)
    (ht : transact τ s = .next t) : t.mode = .faulted ∧ t.fault = s.fault := by
  cases τ with
  | step =>
    cases (step_faulted h).symm.trans ht
    exact ⟨h, rfl⟩
  | tickTimers | setKey | getKey | readDisplay | ackRedraw | readStatus =>
    cases ht
    exact ⟨h, rfl⟩
  | load image =>
    cases ht
    exact State.load_of_faulted h image
  | reset => exact absurd rfl hτ

/-- Settles O9, transaction by transaction. -/
theorem faultedIsLeftOnlyByReset : Obligations.FaultedIsLeftOnlyByReset := fun s h =>
  ⟨step_faulted h, rfl, fun _ _ => faulted_kept_by_transact h, s.resetNow, rfl, rfl, rfl⟩

/-! ### The key wait (R106, R206) -/

theorem State.readReg_completeWait_self (s : State) (x : RegIdx) (k : Fin 16) :
    (s.completeWait x k).readReg x = BitVec.ofNat 8 k.val := s.readReg_writeReg_self x _

theorem regsKept_completeWait (s : State) (x : RegIdx) (k : Fin 16) : RegsKept s (s.completeWait x k) [x] :=
  regsKept_writeReg s x _

theorem step_of_no_key (h : s.mode = .awaitingKey x) (hk : ∀ k, s.readKey k = false) : step s = .next s := by
  rw [step_awaiting h]
  obtain ⟨-, he⟩ | ⟨k, hk', -⟩ := keyWait_answers (s := s) x
  · exact he
  · cases (hk k).symm.trans hk'

theorem step_of_key (h : s.mode = .awaitingKey x) (hk : ∃ k, s.readKey k = true) :
    ∃ k, s.readKey k = true ∧ step s = .next (s.completeWait x k) := by
  obtain ⟨l, hl⟩ := hk
  rw [step_awaiting h]
  obtain ⟨hnone, -⟩ | hwakes := keyWait_answers (s := s) x
  · cases (hnone l).symm.trans hl
  · exact hwakes

/-- Settles O39: the wait begins by its equation, and then the latch decides which of its two answers a step gives. -/
theorem keyWaitBeginsAndCompletes : Obligations.KeyWaitBeginsAndCompletes := by
  intro s x
  refine ⟨⟨decode_encode (.ldVxK x), _, exec_ldVxK x, rfl, rfl⟩, fun hwait => ⟨step_of_no_key hwait, fun hkey => ?_⟩⟩
  obtain ⟨k, hk, hstep⟩ := step_of_key hwait hkey
  exact ⟨_, k, hstep, hk, s.readReg_completeWait_self x k, rfl, rfl, regsKept_completeWait s x k,
    .of_mem_eq rfl rfl 0 0, rfl⟩

end Sys2Proof.Machine
end

section
/-! Control flow, instruction by instruction (R121 to R128), and what follows the end of a run (R274). -/

namespace Sys2Proof.Machine

variable {s t : State} {τ : Transaction} {τs : List Transaction} {image : List Byte}

/-! ### Jumps, CALL and RET -/

/-- Settles O21: both targets are 16-bit readings of 12-bit values. -/
theorem jumpsSetThePcOnly : Obligations.JumpsSetThePcOnly := fun _ nnn =>
  ⟨⟨decode_encode (.jp nnn), _, exec_jp nnn, addrOperand_toNat nnn, rfl⟩,
   ⟨decode_encode (.jpV0 nnn), _, exec_jpV0 nnn, offsetTarget_toNat _ nnn, rfl⟩⟩

/-- The fault of an instruction's check, in a state that is not Faulted, with the record of R220. -/
theorem raiseBy_faultedWith (h : s.mode ≠ .faulted) (k : FaultKind) (i : Instr) :
    ∃ t, s.raiseBy k i = .next t ∧ FaultedWith s t k (some (encode i)) :=
  ⟨_, rfl, faultedWith_raise h k _⟩

/-- Settles O22, from the equations of CALL below depth 16 and at it. -/
theorem callPushesItsOwnAddress : Obligations.CallPushesItsOwnAddress := by
  intro s nnn
  refine ⟨decode_encode (.call nnn), fun hlt => ?_, fun hfull hrun => ?_⟩
  · refine ⟨_, exec_call_of_lt nnn hlt, addrOperand_toNat nnn, rfl, fun k => ?_, rfl⟩
    simp only [Vector.getElem_set, eq_comm]
  · rw [exec_call_of_full nnn hfull]
    exact raiseBy_faultedWith (mode_ne_faulted_of_running hrun) _ (.call nnn)

/-- Settles O23, from the equations of RET above depth 0 and at it. -/
theorem retReturnsPastThePushedAddress : Obligations.RetReturnsPastThePushedAddress := by
  intro s
  refine ⟨decode_encode .ret, fun hpos => ?_, fun hzero hrun => ?_⟩
  · exact ⟨_, exec_ret_of_pos hpos, rfl, Nat.sub_add_cancel hpos, rfl⟩
  · rw [exec_ret_of_zero hzero]
    exact raiseBy_faultedWith (mode_ne_faulted_of_running hrun) _ .ret

/-! ### Skips -/

theorem onlyPc_applyEffect_skipIf (s : State) (c : Bool) : OnlyPc s (s.applyEffect (skipIf c)) := by
  cases c with
  | false => rfl
  | true => rfl

/-- Every conditional skip, by the condition it tests (R105, R120). -/
theorem endWith_skipIf {c : Bool} {p : Prop} [Decidable p] (hc : c = true ↔ p) :
    ∃ t, s.endWith (skipIf c) = .next t ∧ t.pc = (if p then s.pc + 4 else s.pc + 2) ∧ OnlyPc s t :=
  ⟨_, rfl, (s.applyEffect_skipIf_pc c).trans (if_congr hc rfl rfl), onlyPc_applyEffect_skipIf s c⟩

/-- Settles O25: each comparison decides its condition, and the other low nibbles of 5xyn and 9xyn are illegal. -/
theorem skipsCompareForEquality : Obligations.SkipsCompareForEquality := by
  intro s x y kk
  have hillegal {op n : Nibble} (hop : op = 0x5 ∨ op = 0x9) (hn : n ≠ 0) : IsIllegal (wordXYN op x y n) :=
    .inr (.inl ⟨by simpa using hop, by simpa using hn⟩)
  exact
    ⟨⟨decode_encode (.seByte x kk), endWith_skipIf beq_iff_eq⟩,
     ⟨decode_encode (.sneByte x kk), endWith_skipIf bne_iff_ne⟩,
     ⟨decode_encode (.seReg x y), endWith_skipIf beq_iff_eq⟩,
     fun _ hn => decode_of_isIllegal (hillegal (.inl rfl) hn),
     ⟨decode_encode (.sneReg x y), endWith_skipIf bne_iff_ne⟩,
     fun _ hn => decode_of_isIllegal (hillegal (.inr rfl) hn)⟩

/-! ### The jump at the end of a run -/

/-- `0x1000 OR nnn` is the word of `JP nnn` (R72). -/
theorem jpWord_eq_or (nnn : Addr) : 0x1000 ||| addrOperand nnn = encode (.jp nnn) := by
  have hop : (0x1000 : Word) = (0x1#4 ++ 0#12 : BitVec 16) := rfl
  have haddr : addrOperand nnn = (0#4 ++ nnn : BitVec 16) := BitVec.setWidth_eq_append (by decide)
  rw [hop, haddr, BitVec.or_append]
  simp [encode, wordNNN]

/-- An address below 0x1000 keeps its value as a 12-bit operand. -/
theorem addrOperand_setWidth {pc : Word} (h : pc.toNat ≤ 0xFFE) : addrOperand (pc.setWidth 12) = pc := by
  apply BitVec.eq_of_toNat_eq
  rw [addrOperand_toNat, BitVec.toNat_setWidth]
  exact Nat.mod_eq_of_lt (by omega)

/-- Settles O55: the word at an end decodes to a jump whose target is `pc`. -/
theorem endOfRunStepsInPlace : Obligations.EndOfRunStepsInPlace := by
  intro s h
  obtain ⟨hrun, hpc, hword⟩ := State.atEnd_iff.1 h
  rw [← s.fetchWord_eq] at hword
  have htarget : addrOperand (s.pc.setWidth 12) = s.pc := addrOperand_setWidth hpc
  have hd : decode s.fetchWord = .instr (.jp (s.pc.setWidth 12)) := by
    rw [hword, ← decode_encode, ← jpWord_eq_or, htarget]
  rw [step_of_instr hrun hpc hd, exec_jp, htarget]

/-! ### What follows an end -/

/-- The state with other values in what the host changes at an end: the timers, the keys and `redraw`. -/
def State.withHostFields (s : State) (dt st : Byte) (key : Vector Bool 16) (redraw : Bool) : State :=
  { s with DT := dt, ST := st, key := key, redraw := redraw }

/-- R274's condition reads none of these fields. -/
@[simp] theorem State.withHostFields_atEnd (s : State) (dt st : Byte) (key : Vector Bool 16) (redraw : Bool) :
    (s.withHostFields dt st key redraw).atEnd = s.atEnd := rfl

theorem transact_of_atEnd (h : s.atEnd = true) (hreset : τ ≠ .reset) (hload : ∀ image, τ ≠ .load image) :
    ∃ dt st key redraw, transact τ s = .next (s.withHostFields dt st key redraw) := by
  cases τ with
  | step => exact ⟨s.DT, s.ST, s.key, s.redraw, endOfRunStepsInPlace s h⟩
  | tickTimers => exact ⟨timerTick s.DT, timerTick s.ST, s.key, s.redraw, rfl⟩
  | setKey k p => exact ⟨s.DT, s.ST, s.key.set k.val p k.isLt, s.redraw, rfl⟩
  | ackRedraw => exact ⟨s.DT, s.ST, s.key, false, rfl⟩
  | getKey | readDisplay | readStatus => exact ⟨s.DT, s.ST, s.key, s.redraw, rfl⟩
  | load image => exact absurd rfl (hload image)
  | reset => exact absurd rfl hreset

theorem runTransactions_of_atEnd (h : s.atEnd = true) (hτs : ∀ τ ∈ τs, τ ≠ .reset ∧ ∀ image, τ ≠ .load image) :
    ∃ dt st key redraw, runTransactions τs s = .next (s.withHostFields dt st key redraw) := by
  induction τs generalizing s with
  | nil => exact ⟨s.DT, s.ST, s.key, s.redraw, rfl⟩
  | cons τ τs ih =>
    rw [List.forall_mem_cons] at hτs
    obtain ⟨⟨hreset, hload⟩, hrest⟩ := hτs
    obtain ⟨dt, st, key, redraw, ht⟩ := transact_of_atEnd h hreset hload
    rw [runTransactions_cons ht]
    exact ih ((s.withHostFields_atEnd dt st key redraw).trans h) hrest

/-! ### No fault is recorded at an end -/

/-- The first end of a run from a state of the invariant is a state of it: every transaction on the way keeps it. -/
theorem Inv.of_firstEnd (hs : Inv s) (h : firstEnd τs s = some t) : Inv t := by
  induction τs generalizing s with
  | nil =>
    by_cases he : s.atEnd = true
    · cases (firstEnd_of_atEnd he).symm.trans h
      exact hs
    · cases (firstEnd_nil he).symm.trans h
  | cons τ τs ih =>
    by_cases he : s.atEnd = true
    · cases (firstEnd_of_atEnd he).symm.trans h
      exact hs
    · obtain ⟨u, hu, hinv⟩ := transact_answers hs τ
      exact ih hinv ((firstEnd_cons he hu).symm.trans h)

/-- Boot starts from a state of the invariant (R260, R270). -/
theorem Inv.of_endOfRun (hc : s.cfg.wf = true) (h : s.endOfRun image τs = some t) : Inv t :=
  ((inv_resetNow hc).load image).of_firstEnd h

/-- Settles O57: an end is Running, where the invariant allows no record, and only the host's fields change after it. -/
theorem endsAreSuccessfulAndTheEngineKeepsJumping : Obligations.EndsAreSuccessfulAndTheEngineKeepsJumping := by
  intro s t image τs later hc h
  have hend : t.atEnd = true := firstEnd_atEnd h
  have hrun : t.mode = .running := (State.atEnd_iff.1 hend).1
  refine ⟨⟨hend, (Inv.of_endOfRun hc h).fault_eq_none (mode_ne_faulted_of_running hrun)⟩, fun hlater => ?_⟩
  obtain ⟨dt, st, key, redraw, hu⟩ := runTransactions_of_atEnd hend hlater
  exact ⟨_, hu, (t.withHostFields_atEnd dt st key redraw).trans hend, rfl⟩

end Sys2Proof.Machine
end

section
/-! Register loads, arithmetic and logic (R140 to R152), and ADD undone by SUB (R154). -/

namespace Sys2Proof.Machine

/-! ### Byte results and flags as numbers (R140) -/

section
variable (a b : Byte)

theorem toNat_sub_eq_mod : (a - b).toNat = (a.toNat + 256 - b.toNat) % 256 := by
  have hb : b.toNat < 256 := b.isLt
  rw [BitVec.toNat_sub, show a.toNat + 256 - b.toNat = 256 - b.toNat + a.toNat by omega]

theorem toNat_ushiftRight_one : (a >>> 1).toNat = a.toNat / 2 := by
  rw [BitVec.toNat_ushiftRight, Nat.shiftRight_eq_div_pow, pow_one]

theorem toNat_shiftLeft_one : (a <<< 1).toNat = 2 * a.toNat % 256 := by
  rw [BitVec.toNat_shiftLeft, Nat.shiftLeft_eq, pow_one, Nat.mul_comm]

theorem flagByte_decide (p : Prop) [Decidable p] : flagByte (decide p) = if p then 1 else 0 :=
  if_congr decide_eq_true_iff rfl rfl

theorem toNat_flagByte (f : Bool) : (flagByte f).toNat = f.toNat := by
  cases f with
  | false => rfl
  | true => rfl

theorem toNat_flagByte_lowBitOut : (flagByte (lowBitOut a)).toNat = a.toNat % 2 := by
  rw [toNat_flagByte, lowBitOut, BitVec.getLsbD, Nat.toNat_testBit, pow_zero, Nat.div_one]

/-- Bit 7 is the top bit of a byte, so nothing stands above it. -/
theorem toNat_flagByte_highBitOut : (flagByte (highBitOut a)).toNat = a.toNat / 128 := by
  have ha : a.toNat < 256 := a.isLt
  have hbit : a.toNat / 128 < 2 := by omega
  rw [toNat_flagByte, highBitOut, BitVec.getLsbD, Nat.toNat_testBit]
  exact Nat.mod_eq_of_lt hbit

end

variable (s : State) (x y : RegIdx)

/-! ### Instructions that write one register -/

theorem exists_endWith_writeReg (v : Byte) :
    ∃ t, (s.writeReg x v).endWith .next = .next t ∧ t.readReg x = v ∧ t.pc = s.pc + 2 ∧ OnlyRegsAndPc s t [x] :=
  ⟨_, rfl, by simp, rfl, onlyRegsAndPc_writeReg_next s x v⟩

/-- Settles O14: both are one register write, and byte addition is modulo 256. -/
theorem immediateFormsWriteVxOnly : Obligations.ImmediateFormsWriteVxOnly := by
  intro s x kk
  refine ⟨⟨decode_encode (.ldByte x kk), exists_endWith_writeReg s x kk⟩, decode_encode (.addByte x kk), ?_⟩
  obtain ⟨t, ht, hx, hrest⟩ := exists_endWith_writeReg s x (s.readReg x + kk)
  exact ⟨t, ht, (congrArg BitVec.toNat hx).trans (BitVec.toNat_add ..), hrest⟩

/-- Settles O15: each is one register write. -/
theorem copyAndLogicWriteVxOnly : Obligations.CopyAndLogicWriteVxOnly := fun s x y =>
  ⟨⟨decode_encode (.ldReg x y), exists_endWith_writeReg s x _⟩,
   ⟨decode_encode (.orReg x y), exists_endWith_writeReg s x _⟩,
   ⟨decode_encode (.andReg x y), exists_endWith_writeReg s x _⟩,
   ⟨decode_encode (.xorReg x y), exists_endWith_writeReg s x _⟩⟩

/-! ### Instructions that write a result and then the flag -/

/-- The state after an instruction that writes a result, then a flag, and goes to the next one (R141). -/
def State.afterResultFlag (r : Byte) (f : Bool) : State := (s.writeResultFlag x r f).applyEffect .next

section
variable (r : Byte) (f : Bool)

theorem State.readReg_afterResultFlag_self (hx : x ≠ VF) : (s.afterResultFlag x r f).readReg x = r := by
  rw [State.afterResultFlag, State.readReg_applyEffect, State.readReg_writeResultFlag s x x r f hx, if_pos rfl]

@[simp] theorem State.readReg_afterResultFlag_VF : (s.afterResultFlag x r f).readReg VF = flagByte f := by
  rw [State.afterResultFlag, State.readReg_applyEffect, State.readReg_writeResultFlag_VF]

theorem regsKept_afterResultFlag : RegsKept s (s.afterResultFlag x r f) [x, VF] := by
  intro y hy
  obtain ⟨hxy, hyF⟩ : x ≠ y ∧ y ≠ VF := by simpa [eq_comm] using hy
  rw [State.afterResultFlag, State.readReg_applyEffect, State.readReg_writeResultFlag s x y r f hyF, if_neg hxy]

theorem onlyRegsAndPc_afterResultFlag : OnlyRegsAndPc s (s.afterResultFlag x r f) [x, VF] :=
  ⟨regsKept_afterResultFlag s x r f, .of_mem_eq rfl rfl 0 0, rfl⟩

end

theorem exec_addReg : exec (.addReg x y) s =
    .next (s.afterResultFlag x (s.readReg x + s.readReg y) (carryOut (s.readReg x) (s.readReg y))) := rfl

theorem exec_subReg : exec (.subReg x y) s =
    .next (s.afterResultFlag x (s.readReg x - s.readReg y) (noBorrow (s.readReg x) (s.readReg y))) := rfl

theorem exec_shr : exec (.shr x y) s =
    .next (s.afterResultFlag x (s.readReg x >>> 1) (lowBitOut (s.readReg x))) := rfl

theorem exec_shl : exec (.shl x y) s =
    .next (s.afterResultFlag x (s.readReg x <<< 1) (highBitOut (s.readReg x))) := rfl

/-- Settles O16: the sum is a byte addition, and the flag compares the sum of the numbers with 255. -/
theorem addGivesSumAndCarry : Obligations.AddGivesSumAndCarry := by
  intro s x y
  refine ⟨decode_encode (.addReg x y), _, exec_addReg s x y, fun hx => ?_, ?_, rfl, onlyRegsAndPc_afterResultFlag ..⟩
  · rw [State.readReg_afterResultFlag_self _ _ _ _ hx]
    exact BitVec.toNat_add ..
  · rw [State.readReg_afterResultFlag_VF]
    exact flagByte_decide _

/-- The subtraction of `b` from `a` into `x`, for both orders of the operands (R149, R151). -/
theorem exists_endWith_sub (a b : Byte) :
    ∃ t, (s.writeResultFlag x (a - b) (noBorrow a b)).endWith .next = .next t ∧
      (x ≠ VF → (t.readReg x).toNat = (a.toNat + 256 - b.toNat) % 256) ∧
      t.readReg VF = (if a.toNat ≥ b.toNat then 1 else 0) ∧ t.pc = s.pc + 2 ∧ OnlyRegsAndPc s t [x, VF] := by
  refine ⟨s.afterResultFlag x _ _, rfl, fun hx => ?_, ?_, rfl, onlyRegsAndPc_afterResultFlag ..⟩
  · rw [State.readReg_afterResultFlag_self _ _ _ _ hx, toNat_sub_eq_mod]
  · rw [State.readReg_afterResultFlag_VF]
    exact flagByte_decide _

/-- Settles O17: SUBN is SUB with the operands reversed. -/
theorem subtractionsGiveDifferenceAndNoBorrow : Obligations.SubtractionsGiveDifferenceAndNoBorrow := fun s x y =>
  ⟨⟨decode_encode (.subReg x y), exists_endWith_sub s x (s.readReg x) (s.readReg y)⟩,
   ⟨decode_encode (.subn x y), exists_endWith_sub s x (s.readReg y) (s.readReg x)⟩⟩

/-- Settles O18: a shift by one halves or doubles, and the flag is the bit that falls off. -/
theorem shiftsGiveTheBitShiftedOut : Obligations.ShiftsGiveTheBitShiftedOut := by
  intro s x y
  refine
    ⟨⟨decode_encode (.shr x y), _, exec_shr s x y, fun hx => ?_, ?_, rfl, onlyRegsAndPc_afterResultFlag ..⟩,
     ⟨decode_encode (.shl x y), _, exec_shl s x y, fun hx => ?_, ?_, rfl, onlyRegsAndPc_afterResultFlag ..⟩⟩
  · rw [State.readReg_afterResultFlag_self _ _ _ _ hx, toNat_ushiftRight_one]
  · rw [State.readReg_afterResultFlag_VF, toNat_flagByte_lowBitOut]
  · rw [State.readReg_afterResultFlag_self _ _ _ _ hx, toNat_shiftLeft_one]
  · rw [State.readReg_afterResultFlag_VF, toNat_flagByte_highBitOut]

/-- Settles O20: Vy outlives both instructions, so the SUB takes off what the ADD added. -/
theorem addThenSubRestores : Obligations.AddThenSubRestores := by
  intro s x y hxF hyF hxy
  have hy : y ∉ [x, VF] := by simp [hxy.symm, hyF]
  refine ⟨_, _, exec_addReg s x y, exec_subReg _ x y, ?_, ?_⟩
  · rw [State.readReg_afterResultFlag_self _ _ _ _ hxF, State.readReg_afterResultFlag_self _ _ _ _ hxF,
      regsKept_afterResultFlag s x _ _ y hy]
    exact BitVec.add_sub_cancel ..
  · rw [regsKept_afterResultFlag _ x _ _ y hy, regsKept_afterResultFlag s x _ _ y hy]

end Sys2Proof.Machine
end

section
/-! The index register and the memory transfers through it (R170 to R176). -/

namespace Sys2Proof.Machine

variable (s : State) (x : RegIdx)

/-! ### Instructions that write `I` (R170 to R172) -/

/-- A value below 4096 passes the mask of R24 unchanged. -/
theorem toNat_masked_of_lt {v : Word} (hv : v.toNat < 4096) : (v &&& 0x0FFF).toNat = v.toNat := by
  rw [BitVec.toNat_and]
  exact (Nat.and_two_pow_sub_one_eq_mod v.toNat 12).trans (Nat.mod_eq_of_lt hv)

theorem toNat_ofNat_mod_memSize (n : Nat) : (BitVec.ofNat 16 (n % memSize)).toNat = n % 4096 := by
  have hlt : n % memSize < 2 ^ 16 := (Nat.mod_lt n (by decide)).trans (by decide)
  rw [BitVec.toNat_ofNat, Nat.mod_eq_of_lt hlt]

theorem State.I_writeI_of_toNat {v : Word} {n : Nat} (hv : v.toNat = n) (hn : n < 4096) :
    (s.writeI v).I.toNat = n := by
  rw [State.writeI_I, toNat_masked_of_lt (hv.trans_lt hn), hv]

theorem exists_endWith_writeI {v : Word} {n : Nat} (hv : v.toNat = n) (hn : n < 4096) :
    ∃ t, (s.writeI v).endWith .next = .next t ∧ t.I.toNat = n ∧ t.pc = s.pc + 2 ∧ OnlyIndexRegsAndPc s t [] :=
  ⟨_, rfl, s.I_writeI_of_toNat hv hn, rfl, fun _ _ => rfl, .of_mem_eq rfl rfl 0 0, rfl⟩

/-- Settles O27: each is one write of `I`, of a value below 4096. -/
theorem loadIndexAndGlyphAddress : Obligations.LoadIndexAndGlyphAddress := fun s nnn x =>
  ⟨⟨decode_encode (.ldI nnn), exists_endWith_writeI s (addrOperand_toNat nnn) nnn.isLt⟩,
   ⟨decode_encode (.ldF x), exists_endWith_writeI s (toNat_ofNat_mod_memSize _) (Nat.mod_lt _ (by decide))⟩⟩

/-- Settles O28, with the quirk disabled and enabled: the same write of `I`, and under the quirk VF after it. -/
theorem addIndexWrapsAndFlagsOnlyByQuirk : Obligations.AddIndexWrapsAndFlagsOnlyByQuirk := by
  intro s x
  have hsum := toNat_ofNat_mod_memSize (indexSum s.I (s.readReg x))
  have hlt : indexSum s.I (s.readReg x) % 4096 < 4096 := Nat.mod_lt _ (by decide)
  refine ⟨decode_encode (.addI x), ?_⟩
  by_cases hq : s.cfg.quirkAddIVf = true
  · refine ⟨_, exec_addI_of_quirk x hq, s.I_writeI_of_toNat hsum hlt, rfl, fun hno => ?_, fun _ => ⟨?_, ?_⟩⟩
    · exact absurd hq (Bool.eq_false_iff.1 hno)
    · rw [State.readReg_applyEffect, State.readReg_writeReg_self]
      exact flagByte_decide _
    · refine ⟨fun r hr => ?_, .of_mem_eq rfl rfl 0 0, rfl⟩
      rw [State.readReg_applyEffect]
      exact regsKept_writeReg _ VF _ r hr
  · obtain ⟨t, ht, hI, hpc, honly⟩ := exists_endWith_writeI s hsum hlt
    exact ⟨t, (exec_addI_of_no_quirk x hq).trans ht, hI, hpc, fun _ => honly, fun h => absurd h hq⟩

/-! ### Transfers between registers and memory (R173 to R176) -/

/-- The frame of an instruction that stores bytes inside memory and goes to the next one. -/
theorem onlyBytesAndPc_writeBytes_next {a : Nat} {bs : List Byte} (hr : a + bs.length ≤ 4096) :
    OnlyBytesAndPc s ((s.writeBytes a bs).applyEffect .next) a bs.length := by
  refine ⟨fun b hb => ?_, fun r _ => by simp, ?_⟩
  · rw [State.readByte_congr (State.applyEffect_mem _ .next) (State.applyEffect_cfg _ .next)]
    exact State.writeBytes_bytesKept s a bs hr b hb
  · rw [State.writeBytes_frame]
    rfl

theorem exists_endWith_writeBytes {a : Nat} {bs : List Byte} (hr : a + bs.length ≤ 4096) :
    ∃ t, (s.writeBytes a bs).endWith .next = .next t ∧
      (∀ k b, bs[k]? = some b → t.readByte (addrOf (a + k)) = b) ∧
      t.pc = s.pc + 2 ∧ OnlyBytesAndPc s t a bs.length := by
  refine ⟨_, rfl, fun k b hk => ?_, by simp, onlyBytesAndPc_writeBytes_next s hr⟩
  rw [State.readByte_congr (State.applyEffect_mem _ .next) (State.applyEffect_cfg _ .next)]
  exact State.readByte_writeBytes_add s hr hk

section
variable {s x}

/-- The fault of an instruction's check in Running, with the record of R220 (R56, R221). -/
theorem exec_faultedWith {i : Instr} {k : FaultKind} (hf : faultOf i s = some k) (hrun : s.mode = .running) :
    ∃ t, exec i s = .next t ∧ FaultedWith s t k (some (encode i)) := by
  have h := instructionsFaultExactlyWhenTheirCheckFails i s hrun
  rw [hf] at h
  exact h

/-- A BCD store inside memory (R173). -/
theorem exec_ldB_of_le (h : s.I.toNat + 2 ≤ 0xFFF) :
    exec (.ldB x) s = (s.writeBytes s.I.toNat (bcdDigits (s.readReg x))).endWith .next :=
  State.checkRange_in s (by omega)

/-- A register load inside memory (R175). -/
theorem exec_loadRegs_of_le (h : s.I.toNat + x.toNat ≤ 0xFFF) :
    exec (.loadRegs x) s =
      .next ((s.writeRegs 0 (s.readBytes s.I.toNat (regCount x))).applyEffect .next) :=
  State.checkRange_in s (by unfold regCount; omega)

end

/-- Settles O29: each digit is below 256, so a byte holds it as it is. -/
theorem bcdStoresThreeDigits : Obligations.BcdStoresThreeDigits := by
  intro s x
  have hv : (s.readReg x).toNat < 256 := (s.readReg x).isLt
  refine ⟨decode_encode (.ldB x), fun hle => ?_, fun hgt hrun => exec_faultedWith (if_pos hgt) hrun⟩
  have hr : s.I.toNat + (bcdDigits (s.readReg x)).length ≤ 4096 := Nat.succ_le_succ hle
  obtain ⟨t, ht, hread, hpc, honly⟩ := exists_endWith_writeBytes s hr
  have hdigit {k n : Nat} (hk : (bcdDigits (s.readReg x))[k]? = some (BitVec.ofNat 8 n)) (hn : n < 256) :
      (t.readByte (addrOf (s.I.toNat + k))).toNat = n := by
    rw [hread k _ hk, BitVec.toNat_ofNat]
    exact Nat.mod_eq_of_lt hn
  exact ⟨t, (exec_ldB_of_le hle).trans ht, hdigit (k := 0) rfl (by omega), hdigit rfl (by omega),
    hdigit rfl (by omega), hpc, honly⟩

/-- Settles O30: byte `k` of the store is the value of register `k`. -/
theorem registerDumpStoresV0ToVx : Obligations.RegisterDumpStoresV0ToVx := by
  intro s x
  refine ⟨decode_encode (.storeRegs x), fun hle => ?_, fun hgt hrun => exec_faultedWith (if_pos hgt) hrun⟩
  have hlen := s.regList_length x
  have hr : s.I.toNat + (s.regList x).length ≤ 4096 := by omega
  obtain ⟨t, ht, hread, hpc, honly⟩ := exists_endWith_writeBytes s hr
  refine ⟨t, (exec_storeRegs_of_le hle).trans ht, fun k hk => hread _ _ ?_, hpc, hlen ▸ honly⟩
  rw [State.regList_getElem?, if_pos hk, BitVec.ofNat_toNat, BitVec.setWidth_eq]

/-- A list of registers read from memory from index 0 on: register `k` gets the byte at `a + k` (R175). -/
theorem State.readReg_writeRegs_readBytes (a : Nat) (k : RegIdx) :
    (s.writeRegs 0 (s.readBytes a (regCount x))).readReg k =
      if k.toNat ≤ x.toNat then s.readByte (addrOf (a + k.toNat)) else s.readReg k := by
  have hx : x.toNat < 16 := x.isLt
  have hlen : 0 + (s.readBytes a (regCount x)).length ≤ 16 := by
    rw [State.readBytes_length, regCount]
    omega
  rw [State.readReg_writeRegs s 0 _ hlen, if_pos (Nat.zero_le _), Nat.sub_zero, State.readBytes_getElem?]
  simp only [regCount, Nat.lt_add_one_iff]
  split
  · rfl
  · rfl

/-- Settles O31: a register load inside memory writes the registers up to Vx and nothing else. -/
theorem registerLoadReadsV0ToVx : Obligations.RegisterLoadReadsV0ToVx := by
  intro s x
  refine ⟨decode_encode (.loadRegs x), fun hle => ?_, fun hgt hrun => exec_faultedWith (if_pos hgt) hrun⟩
  refine ⟨_, exec_loadRegs_of_le hle, fun k => ?_, by simp, .of_mem_eq (by simp) (by simp) 0 0, ?_⟩
  · rw [State.readReg_applyEffect, State.readReg_writeRegs_readBytes]
  · rw [State.writeRegs_frame]
    rfl

end Sys2Proof.Machine
end

section
/-! The display: CLS, DRW, and a sprite drawn twice (R190 to R193). -/

namespace Sys2Proof.Machine

variable (s s' : State) (x y : RegIdx) (n : Nibble)

/-! ### CLS (R190) -/

/-- Settles O34: CLS stores the clear display, and its frame is everything it does not name. -/
theorem clsClearsEveryPixel : Obligations.ClsClearsEveryPixel := fun _ =>
  ⟨decode_encode .cls, _, rfl, Display.pixel_clear, rfl, rfl, fun _ _ => rfl, .of_mem_eq rfl rfl 0 0, rfl⟩

/-! ### DRW (R191, R192) -/

/-- The display and the collision that `DRW Vx, Vy, n` computes. -/
def State.drawn : Display × Bool :=
  drawRows (s.readReg x) (s.readReg y) 0 (s.readBytes s.I.toNat n.toNat) (s.disp, false)

/-- The state after a `DRW Vx, Vy, n` that completes. -/
def State.afterDrw : State :=
  State.applyEffect
    { s.writeReg VF (flagByte (s.drawn x y n).2) with disp := (s.drawn x y n).1, redraw := true } .next

theorem onlyDisplayRegsAndPc_afterDrw : OnlyDisplayRegsAndPc s (s.afterDrw x y n) [VF] :=
  ⟨regsKept_writeReg s VF _, .of_mem_eq rfl rfl 0 0, rfl⟩

theorem State.readReg_afterDrw_VF : (s.afterDrw x y n).readReg VF = flagByte (s.drawn x y n).2 :=
  State.readReg_writeReg_self s VF _

theorem flagByte_eq_one_iff (f : Bool) : flagByte f = 1 ↔ f = true := by
  cases f with
  | false => decide
  | true => decide

section
variable {s s' x y n}

theorem exec_drw_of_le (h : n.toNat = 0 ∨ s.I.toNat + n.toNat - 1 ≤ 0xFFF) :
    exec (.drw x y n) s = .next (s.afterDrw x y n) :=
  execDrw_inRange (by omega)

/-- A sprite has at most 15 rows, so it never wraps onto itself (R191). -/
theorem State.length_readBytes_nibble_le (n : Nibble) : (s.readBytes s.I.toNat n.toNat).length ≤ 32 := by
  have hn : n.toNat < 16 := n.isLt
  rw [State.readBytes_length]
  omega

theorem State.pixel_afterDrw_of_covers {px : Fin 64} {py : Fin 32} (h : s.drwCovers x y n px py) :
    (s.afterDrw x y n).pixel px py = !s.pixel px py :=
  (drawRows_pixel _ _ _ (State.length_readBytes_nibble_le n) _ px py).1 (spriteCovers_readBytes.2 h)

theorem State.pixel_afterDrw_of_not_covers {px : Fin 64} {py : Fin 32} (h : ¬s.drwCovers x y n px py) :
    (s.afterDrw x y n).pixel px py = s.pixel px py :=
  (drawRows_pixel _ _ _ (State.length_readBytes_nibble_le n) _ px py).2 (mt spriteCovers_readBytes.1 h)

theorem State.drawn_collides_iff :
    (s.drawn x y n).2 = true ↔ ∃ px py, s.drwCovers x y n px py ∧ s.pixel px py = true := by
  simp only [← spriteCovers_readBytes]
  exact (drawRows_collide _ _ _ (State.length_readBytes_nibble_le n) _).trans (or_iff_right Bool.false_ne_true)

theorem State.afterDrw_VF_eq_one_iff :
    (s.afterDrw x y n).readReg VF = 1 ↔ ∃ px py, s.drwCovers x y n px py ∧ s.pixel px py = true := by
  rw [State.readReg_afterDrw_VF, flagByte_eq_one_iff, State.drawn_collides_iff]

theorem State.afterDrw_VF_eq_zero (h : ¬∃ px py, s.drwCovers x y n px py ∧ s.pixel px py = true) :
    (s.afterDrw x y n).readReg VF = 0 := by
  rw [State.readReg_afterDrw_VF, Bool.eq_false_iff.2 (mt State.drawn_collides_iff.1 h)]
  rfl

/-! ### Two equal DRWs (R193) -/

/-- The covered pixels depend on `I`, the two coordinates and the sprite bytes alone. -/
theorem State.drwCovers_congr (hI : s'.I = s.I) (hx : s'.readReg x = s.readReg x) (hy : s'.readReg y = s.readReg y)
    (hb : ∀ r, r < n.toNat → s'.readByte (addrOf (s.I.toNat + r)) = s.readByte (addrOf (s.I.toNat + r)))
    (px : Fin 64) (py : Fin 32) : s'.drwCovers x y n px py ↔ s.drwCovers x y n px py := by
  unfold State.drwCovers
  rw [hI, hx, hy]
  refine exists_congr fun r => exists_congr fun c => and_congr_right fun hr => ?_
  rw [hb r hr]

/-- Every set bit of the sprite lands on some pixel, since coordinates wrap (R191). -/
theorem State.exists_drwCovers_iff : (∃ px py, s.drwCovers x y n px py) ↔
    ∃ r c : Nat, r < n.toNat ∧ c < 8 ∧ (s.readByte (addrOf (s.I.toNat + r))).getLsbD c = true := by
  constructor
  · rintro ⟨_, _, r, c, hr, _, hbit, _, _⟩
    exact ⟨r, 7 - c, hr, by omega, hbit⟩
  · rintro ⟨r, c, hr, hc, hbit⟩
    have hcol : 7 - (7 - c) = c := by omega
    exact ⟨spriteColumn (s.readReg x) (7 - c), spriteRow (s.readReg y) r, r, 7 - c, hr, by omega,
      hcol.symm ▸ hbit, rfl, rfl⟩

/-- A draw over the display that the same sprite left undoes it: a covered pixel is toggled twice, any other not at all. -/
theorem State.pixel_afterDrw_afterDrw (hdisp : s'.disp = (s.afterDrw x y n).disp)
    (hcov : ∀ px py, s'.drwCovers x y n px py ↔ s.drwCovers x y n px py) (px : Fin 64) (py : Fin 32) :
    (s'.afterDrw x y n).pixel px py = s.pixel px py := by
  have hpix := pixelsKept_of_disp_eq hdisp px py
  by_cases h : s.drwCovers x y n px py
  · rw [State.pixel_afterDrw_of_covers ((hcov px py).2 h), hpix, State.pixel_afterDrw_of_covers h, Bool.not_not]
  · rw [State.pixel_afterDrw_of_not_covers (mt (hcov px py).1 h), hpix, State.pixel_afterDrw_of_not_covers h]

/-- The second draw collides where the first one set a pixel. -/
theorem State.afterDrw_afterDrw_VF_eq_one_iff (hdisp : s'.disp = (s.afterDrw x y n).disp)
    (hcov : ∀ px py, s'.drwCovers x y n px py ↔ s.drwCovers x y n px py) :
    (s'.afterDrw x y n).readReg VF = 1 ↔ ∃ px py, s.drwCovers x y n px py ∧ s.pixel px py = false := by
  rw [State.afterDrw_VF_eq_one_iff]
  refine exists_congr fun px => exists_congr fun py => ?_
  rw [hcov]
  refine and_congr_right fun h => ?_
  rw [pixelsKept_of_disp_eq hdisp, State.pixel_afterDrw_of_covers h, Bool.not_eq_true']

end

/-- Settles O35: inside memory the draw is `afterDrw`; past 0xFFF the instruction's own check fails. -/
theorem drwTogglesCoveredPixelsAndReportsCollision : Obligations.DrwTogglesCoveredPixelsAndReportsCollision := by
  intro s x y n
  refine ⟨decode_encode (.drw x y n), fun hle => ?_, fun hn hgt hrun => exec_faultedWith (if_pos ⟨hn, hgt⟩) hrun⟩
  exact ⟨_, exec_drw_of_le hle,
    fun _ _ => ⟨State.pixel_afterDrw_of_covers, State.pixel_afterDrw_of_not_covers⟩,
    State.afterDrw_VF_eq_one_iff.2, State.afterDrw_VF_eq_zero, rfl, rfl, onlyDisplayRegsAndPc_afterDrw s x y n⟩

/-- Settles O36: both draws cover the same pixels, and the second finds each of them toggled. -/
theorem drawingTwiceRestoresTheDisplay : Obligations.DrawingTwiceRestoresTheDisplay := by
  intro s t s' x y n hle ht hdisp hI hx hy hb
  obtain rfl : s.afterDrw x y n = t := by
    rw [exec_drw_of_le hle] at ht
    exact Host.Outcome.next.inj ht
  have hcov := State.drwCovers_congr (n := n) hI hx hy hb
  have hVF := State.afterDrw_afterDrw_VF_eq_one_iff hdisp hcov
  refine ⟨_, exec_drw_of_le (hI.symm ▸ hle), State.pixel_afterDrw_afterDrw hdisp hcov, hVF, fun hclear => ?_⟩
  rw [hVF, ← State.exists_drwCovers_iff (x := x) (y := y)]
  exact exists_congr fun px => exists_congr fun py => and_iff_left (hclear px py)

end Sys2Proof.Machine
end

section
/-! The end of a key wait, the timer transfers and the key skips (R201 to R207, R262). -/

namespace Sys2Proof.Machine

variable {s t : State} {x : RegIdx} {image : List Byte}

/-! ### The end of a key wait (R206, R207, R262) -/

theorem imageWf_iff : imageWf image = true ↔ image.length ≤ 3584 := decide_eq_true_iff

theorem State.load_of_le (h : image.length ≤ 3584) : s.load image = s.writeBytes programStart image :=
  if_pos (imageWf_iff.2 h)

theorem State.load_of_gt (h : 3584 < image.length) : s.load image = s.raise .invalidImageSize none s.pc :=
  if_neg fun hwf => Nat.not_le.2 h (imageWf_iff.1 hwf)

/-- A step of a key wait stays in it, or finds a key pressed and leads to Running. -/
theorem awaiting_step_cases (h : s.mode = .awaitingKey x) (ht : step s = .next t) :
    t = s ∨ (t.mode = .running ∧ ∃ k, s.readKey k = true) := by
  rw [step_awaiting h] at ht
  obtain ⟨-, he⟩ | ⟨k, hk, he⟩ := keyWait_answers (s := s) x
  · cases he.symm.trans ht
    exact .inl rfl
  · cases he.symm.trans ht
    exact .inr ⟨rfl, k, hk⟩

/-- Settles O40, transaction by transaction: only a step, a load and reset write the mode. -/
theorem awaitingKeyIsLeftOnlyByKeyResetOrFault : Obligations.AwaitingKeyIsLeftOnlyByKeyResetOrFault := by
  intro s t x τ h ht
  cases τ with
  | step =>
    obtain rfl | hwakes := awaiting_step_cases h ht
    · exact .inl ⟨h, rfl⟩
    · exact .inr (.inl ⟨rfl, hwakes⟩)
  | tickTimers | setKey | getKey | readDisplay | ackRedraw | readStatus =>
    cases ht
    exact .inl ⟨h, rfl⟩
  | load image =>
    cases ht
    obtain hgt | hle := Nat.lt_or_ge 3584 image.length
    · rw [State.load_of_gt hgt]
      exact .inr (.inr (.inr ⟨image, rfl, hgt, s.raise_mode ..⟩))
    · rw [State.load_of_le hle, State.writeBytes_mode, State.writeBytes_pc]
      exact .inl ⟨h, rfl⟩
  | reset => exact .inr (.inr (.inl rfl))

/-! ### Timer transfers (R201 to R203, R236) -/

/-- Settles O37: LD Vx, DT is one register write, and the other two write one timer and go to the next instruction. -/
theorem timerTransfersCopyTheValue : Obligations.TimerTransfersCopyTheValue := fun s x =>
  ⟨⟨decode_encode (.ldVxDt x), exists_endWith_writeReg s x s.DT⟩,
   ⟨decode_encode (.ldDtVx x), _, rfl, rfl, rfl, fun _ _ => rfl, .of_mem_eq rfl rfl 0 0, rfl⟩,
   ⟨decode_encode (.ldStVx x), _, rfl, rfl, rfl, rfl, fun _ _ => rfl, .of_mem_eq rfl rfl 0 0, rfl⟩⟩

/-! ### Key skips (R204, R205) -/

section
variable {k : Fin 16}

theorem exec_skp_of_key (h : (s.readReg x).toNat = k.val) :
    exec (.skp x) s = s.endWith (skipIf (s.readKey k)) := by
  simp only [exec, execSkp, keyOperand_eq_some.2 h]

theorem exec_sknp_of_key (h : (s.readReg x).toNat = k.val) :
    exec (.sknp x) s = s.endWith (skipIf (!s.readKey k)) := by
  simp only [exec, execSknp, keyOperand_eq_some.2 h]

end

/-- Settles O38: a key index skips by its latch bit, and above 15 the instruction's own check fails. -/
theorem keySkipsReadTheLatch : Obligations.KeySkipsReadTheLatch := by
  intro s x
  refine ⟨⟨decode_encode (.skp x), fun k hk => ?_, fun hgt hrun => exec_faultedWith (if_pos hgt) hrun⟩,
    ⟨decode_encode (.sknp x), fun k hk => ?_, fun hgt hrun => exec_faultedWith (if_pos hgt) hrun⟩⟩
  · rw [exec_skp_of_key hk]
    exact endWith_skipIf Iff.rfl
  · rw [exec_sknp_of_key hk]
    exact endWith_skipIf (Bool.not_eq_true' _).to_iff

end Sys2Proof.Machine
end

section
/-! Precise faults, the timers' tick, the host's reads and writes, and the ports (R222, R235 to R242). -/

namespace Sys2Proof.Machine

variable {s : State}

/-! ### Faults are precise (R221, R222) -/

/-- Settles O10, from what a step from Running can do: it raises a fault at the current `pc`, or it completes and is not
Faulted. -/
theorem faultingStepsChangeOnlyModeAndRecord : Obligations.FaultingStepsChangeOnlyModeAndRecord := by
  intro s t hrun hstep hfaulted
  have hs : s.mode ≠ .faulted := mode_ne_faulted_of_running hrun
  cases stepsTo_of_step hstep with
  | halted h => exact absurd h hs
  | waits _ h | wakes _ _ h => cases hrun.symm.trans h
  | fetchFault | illegal | checkFault => exact ⟨_, _, faultedWith_raise hs _ _⟩
  | completes _ _ _ _ _ _ hc => exact absurd hfaulted (hc.mode_ne_faulted hrun)

/-! ### The host's transactions (R235 to R241) -/

/-- The decrement of R235 is the truncated subtraction of the naturals. -/
theorem toNat_timerTick (b : Byte) : (timerTick b).toNat = b.toNat - 1 := by
  unfold timerTick
  split
  · next h => rw [h]; rfl
  · next h => bv_omega

/-- Settles O52: the tick writes the two timers, each by R235's decrement. -/
theorem ticksDecrementBothTimers : Obligations.TicksDecrementBothTimers := fun s =>
  ⟨s.tickTimers, rfl, toNat_timerTick s.DT, toNat_timerTick s.ST, rfl⟩

/-- Settles O53: the reads answer the state they are made in, and each write is one field's update. -/
theorem hostReadsAndWritesOnlyWhatTheyName : Obligations.HostReadsAndWritesOnlyWhatTheyName := fun s k p =>
  ⟨⟨s.setKey k p, rfl, fun l => (s.readKey_setKey k l p).trans (if_congr eq_comm rfl rfl), rfl⟩,
   ⟨rfl, rfl⟩, ⟨rfl, rfl⟩, ⟨s.ackRedraw, rfl, rfl, rfl⟩, ⟨rfl, rfl⟩⟩

/-! ### The display port (R242) -/

theorem getLsbD_foldl_or {α : Type} {w : Nat} (f : α → BitVec w) (l : List α) (acc : BitVec w) (i : Nat) :
    (l.foldl (fun a y => a ||| f y) acc).getLsbD i = (acc.getLsbD i || l.any fun y => (f y).getLsbD i) := by
  induction l generalizing acc with
  | nil => simp
  | cons y l ih => rw [List.foldl_cons, ih, BitVec.getLsbD_or, List.any_cons, Bool.or_assoc]

/-- A display row at its place in `disp_out`. -/
def State.placedRow (s : State) (y : Fin 32) : BitVec 2048 := (s.disp[y.val]'y.isLt).setWidth 2048 <<< (64 * y.val)

/-- A placed row has its pixels at its own 64 bits, and no others. -/
theorem State.getLsbD_placedRow (s : State) (px : Fin 64) (y py : Fin 32) :
    (s.placedRow y).getLsbD (py.val * 64 + px.val) = (decide (y = py) && s.pixel px py) := by
  have hi : py.val * 64 + px.val < 2048 := by omega
  rw [State.placedRow, BitVec.getLsbD_shiftLeft, BitVec.getLsbD_setWidth, decide_eq_true hi]
  obtain hlt | rfl | hgt := lt_trichotomy y py
  · have habove : 64 ≤ py.val * 64 + px.val - 64 * y.val := by omega
    simp [BitVec.getLsbD_of_ge _ _ habove, hlt.ne]
  · have hself : y.val * 64 + px.val - 64 * y.val = px.val := by omega
    have hge : ¬y.val * 64 + px.val < 64 * y.val := by omega
    have hpx : px.val < 2048 := by omega
    simp [hself, hge, hpx, State.pixel, Display.pixel]
  · have hbelow : py.val * 64 + px.val < 64 * y.val := by omega
    simp [hbelow, hgt.ne']

theorem State.dispOut_eq (s : State) :
    s.dispOut = (List.finRange 32).foldl (fun acc y => acc ||| s.placedRow y) 0 := rfl

theorem State.getLsbD_dispOut (s : State) (px : Fin 64) (py : Fin 32) :
    s.dispOut.getLsbD (py.val * 64 + px.val) = s.pixel px py := by
  rw [State.dispOut_eq, getLsbD_foldl_or, Bool.eq_iff_iff]
  simp [State.getLsbD_placedRow]

/-! ### The mode, tone and fault ports (R220, R236, R242) -/

theorem State.modeOut_of_running (h : s.mode = .running) : s.modeOut = 0 := by rw [State.modeOut, h]

theorem State.modeOut_of_awaitingKey {x : RegIdx} (h : s.mode = .awaitingKey x) : s.modeOut = 1 := by
  rw [State.modeOut, h]

theorem State.modeOut_of_faulted (h : s.mode = .faulted) : s.modeOut = 2 := by rw [State.modeOut, h]

theorem State.tone_iff : s.tone = true ↔ s.ST.toNat > 0 := decide_eq_true_iff

theorem State.faultCode_of_none (h : s.fault = none) : s.faultCode = 0 := by rw [State.faultCode, h]

section
variable {r : FaultRecord} (h : s.fault = some r)
include h

theorem State.faultCode_of_some : s.faultCode = r.kind.code := by rw [State.faultCode, h]

theorem State.faultPc_of_some : s.faultPc = r.pc := by rw [State.faultPc, h]

theorem State.faultWordValid_of_some : s.faultWordValid = r.word.isSome := by
  rw [State.faultWordValid, h, Option.bind_some]

theorem State.faultWord_of_some : s.faultWord = r.word.getD 0 := by rw [State.faultWord, h, Option.bind_some]

end

/-! ### The key port (R238, R242) -/

/-- Setting keys one after the other is the run of their `set_key`s. -/
theorem runTransactions_setKey (ks : List (Fin 16)) (p : Fin 16 → Bool) :
    runTransactions (ks.map fun k => .setKey k (p k)) s = .next (ks.foldl (fun u k => u.setKey k (p k)) s) := by
  induction ks generalizing s with
  | nil => rfl
  | cons k ks ih =>
    rw [List.map_cons, runTransactions_cons (t := s.setKey k (p k)) rfl, ih, List.foldl_cons]

theorem State.foldl_setKey_frame (ks : List (Fin 16)) (p : Fin 16 → Bool) (key : Vector Bool 16) :
    { ks.foldl (fun u k => u.setKey k (p k)) s with key := key } = { s with key := key } := by
  induction ks generalizing s with
  | nil => rfl
  | cons k ks ih => rw [List.foldl_cons, ih, State.setKey]

theorem State.readKey_setKeys (s : State) (keyIn : BitVec 16) (k : Fin 16) :
    (s.setKeys keyIn).readKey k = keyIn.getLsbD k.val :=
  (State.readKey_foldl_setKey ..).trans (if_pos (List.mem_finRange k))

/-- Settles O54, port by port. -/
theorem portsShowTheStateAndSetTheKeys : Obligations.PortsShowTheStateAndSetTheKeys := by
  refine ⟨State.getLsbD_dispOut, fun s => ?_, fun _ => State.faultCode_of_none, fun s r h => ?_, rfl, fun s keyIn => ?_⟩
  · exact ⟨State.modeOut_of_running, fun _ => State.modeOut_of_awaitingKey, State.modeOut_of_faulted, State.tone_iff⟩
  · rw [State.faultWordValid_of_some h, State.faultWord_of_some h]
    refine ⟨State.faultCode_of_some h, State.faultPc_of_some h, fun w hw => ?_, fun hnone => ?_⟩
    · rw [hw]
      exact ⟨rfl, rfl⟩
    · rw [hnone]
      exact ⟨rfl, rfl⟩
  · exact ⟨s.readKey_setKeys keyIn, State.foldl_setKey_frame _ _ s.key, runTransactions_setKey _ _⟩

end Sys2Proof.Machine
end

section
/-! Reset, load and boot, and the end of a run as the first jump to itself (R260 to R262, R270, R274). -/

namespace Sys2Proof

/-! ### The reset content of memory (R8, R32) -/

variable (c : Config)

/-- The reset content holds the font at `FONT_BASE`. -/
theorem Config.resetByte_fontBase_add (k : Fin 80) : c.resetByte (c.fontBase.toNat + k.val) = c.fontData[k.val] := by
  have hfont : c.fontBase.toNat ≤ c.fontBase.toNat + k.val ∧ c.fontBase.toNat + k.val < c.fontBase.toNat + 80 := by omega
  rw [Config.resetByte, dif_pos hfont]
  simp only [Nat.add_sub_cancel_left]

theorem Config.resetByte_outside_font {a : Nat} (h : a < c.fontBase.toNat ∨ c.fontBase.toNat + 80 ≤ a) :
    c.resetByte a = 0 := dif_neg (by omega)

/-- R8: the font lies below `PROGRAM_START`. -/
theorem Config.fontBase_add_le_of_wf (h : c.wf = true) : c.fontBase.toNat + 80 ≤ 0x200 :=
  of_decide_eq_true (Bool.and_eq_true_iff.1 h).1

end Sys2Proof

namespace Sys2Proof.Machine

variable {s t u : State} {τ : Transaction} {τs : List Transaction} {image : List Byte}

/-! ### The end of a run (R274) -/

/-- The terms of `FirstEndOfRun` for a run from any state: `t` is the first state along the transactions that jumps to
itself. -/
def FirstJumpAlong (τs : List Transaction) (s t : State) : Prop :=
  ∃ n, n ≤ τs.length ∧ runTransactions (τs.take n) s = .next t ∧ t.JumpsToItself ∧
    ∀ m, m < n → ∀ u, runTransactions (τs.take m) s = .next u → ¬u.JumpsToItself

/-- The end of a program's run is the first such state from boot on (R270). -/
theorem firstEndOfRun_iff : FirstEndOfRun s image τs t ↔ FirstJumpAlong τs (s.boot image) t := by
  unfold FirstEndOfRun FirstJumpAlong
  simp only [runTransactions_boot]

theorem firstJumpAlong_of_jumpsToItself (h : s.JumpsToItself) : FirstJumpAlong τs s t ↔ t = s := by
  constructor
  · rintro ⟨n, -, hrun, -, hfirst⟩
    cases n with
    | zero => cases hrun; rfl
    | succ n => exact absurd h (hfirst 0 (Nat.succ_pos n) s rfl)
  · rintro rfl
    exact ⟨0, Nat.zero_le _, rfl, h, fun m hm => absurd hm (Nat.not_lt_zero m)⟩

theorem not_firstJumpAlong_nil (h : ¬s.JumpsToItself) : ¬FirstJumpAlong [] s t := by
  rintro ⟨n, -, hrun, ht, -⟩
  rw [List.take_nil] at hrun
  cases hrun
  exact h ht

/-- From a state that is no jump to itself, the first one is found after the next transaction. -/
theorem firstJumpAlong_cons (h : ¬s.JumpsToItself) (hu : transact τ s = .next u) :
    FirstJumpAlong (τ :: τs) s t ↔ FirstJumpAlong τs u t := by
  have hrun (n : Nat) : runTransactions ((τ :: τs).take (n + 1)) s = runTransactions (τs.take n) u :=
    runTransactions_cons hu
  constructor
  · rintro ⟨n, hn, ht, hjump, hfirst⟩
    cases n with
    | zero => cases ht; exact absurd hjump h
    | succ n =>
      exact ⟨n, Nat.le_of_succ_le_succ hn, (hrun n).symm.trans ht, hjump,
        fun m hm v hv => hfirst (m + 1) (Nat.succ_lt_succ hm) v ((hrun m).trans hv)⟩
  · rintro ⟨n, hn, ht, hjump, hfirst⟩
    refine ⟨n + 1, Nat.succ_le_succ hn, (hrun n).trans ht, hjump, fun m hm v hv => ?_⟩
    cases m with
    | zero => cases hv; exact h
    | succ m => exact hfirst m (Nat.lt_of_succ_lt_succ hm) v ((hrun m).symm.trans hv)

/-- No transaction is refused, whatever the state: a step answers, and every other one is an update (R234). -/
theorem exists_transact_eq_next (τ : Transaction) (s : State) : ∃ t, transact τ s = .next t := by
  cases τ with
  | step => exact everyStepAnswersANextState s
  | tickTimers | setKey | getKey | readDisplay | ackRedraw | readStatus | load | reset => exact ⟨_, rfl⟩

theorem firstEnd_eq_some_iff_of_atEnd (h : s.atEnd = true) : firstEnd τs s = some t ↔ FirstJumpAlong τs s t := by
  rw [firstEnd_of_atEnd h, firstJumpAlong_of_jumpsToItself (State.atEnd_iff.1 h), Option.some_inj, eq_comm]

/-- What `firstEnd` computes. -/
theorem firstEnd_eq_some_iff : firstEnd τs s = some t ↔ FirstJumpAlong τs s t := by
  induction τs generalizing s with
  | nil =>
    by_cases h : s.atEnd = true
    · exact firstEnd_eq_some_iff_of_atEnd h
    · rw [firstEnd_nil h]
      exact iff_of_false nofun (not_firstJumpAlong_nil (mt State.atEnd_iff.2 h))
  | cons τ τs ih =>
    by_cases h : s.atEnd = true
    · exact firstEnd_eq_some_iff_of_atEnd h
    · obtain ⟨u, hu⟩ := exists_transact_eq_next τ s
      rw [firstEnd_cons h hu, firstJumpAlong_cons (mt State.atEnd_iff.2 h) hu]
      exact ih

theorem endOfRun_eq_some_iff (h : Transaction.reset ∉ τs) :
    s.endOfRun image τs = some t ↔ FirstEndOfRun s image τs t := by
  rw [endOfRun_of_no_reset image h, firstEnd_eq_some_iff, firstEndOfRun_iff]

/-- The next reset cuts the run off (log 21). -/
theorem endOfRun_append_reset (h : Transaction.reset ∉ τs) (later : List Transaction) :
    s.endOfRun image (τs ++ .reset :: later) = s.endOfRun image τs := by
  have hkeep : ∀ τ ∈ τs, decide (τ ≠ .reset) = true := fun τ hτ => decide_eq_true (ne_of_mem_of_not_mem hτ h)
  rw [endOfRun_of_no_reset image h, State.endOfRun, List.takeWhile_append_of_pos hkeep,
    List.takeWhile_cons_of_neg (by decide), List.append_nil]

theorem runSucceeds_iff : s.runSucceeds image τs = true ↔ ∃ t, s.endOfRun image τs = some t ∧ t.fault = none := by
  unfold State.runSucceeds
  cases s.endOfRun image τs <;> simp

/-- Settles O56: `firstEnd` finds the first jump to itself, and it looks no further than the next reset. -/
theorem endOfRunIsTheFirstJumpToItself : Obligations.EndOfRunIsTheFirstJumpToItself := by
  intro s image τs h
  refine ⟨fun t => endOfRun_eq_some_iff h, endOfRun_append_reset h, ?_⟩
  simp only [runSucceeds_iff, endOfRun_eq_some_iff h]

/-! ### Load (R262) -/

theorem respond_load_of_le (h : image.length ≤ 3584) : respond (.load image) s = .loadOk :=
  if_pos (imageWf_iff.2 h)

theorem respond_load_of_gt (h : 3584 < image.length) : respond (.load image) s = .loadInvalidImageSize :=
  if_neg fun hwf => Nat.not_le.2 h (imageWf_iff.1 hwf)

/-- An accepted image ends inside memory. -/
theorem programStart_add_length_le (h : image.length ≤ 3584) : programStart + image.length ≤ 4096 :=
  Nat.add_le_add_left h programStart

theorem State.readByte_load_of_le (h : image.length ≤ 3584) (k : Nat) (hk : k < image.length) :
    (s.load image).readByte (addrOf (0x200 + k)) = image[k] := by
  rw [State.load_of_le h]
  exact State.readByte_writeBytes_add s (programStart_add_length_le h) (List.getElem?_eq_getElem hk)

theorem State.load_bytesKept_of_le (h : image.length ≤ 3584) : BytesKept s (s.load image) 0x200 image.length := by
  rw [State.load_of_le h]
  exact State.writeBytes_bytesKept s programStart image (programStart_add_length_le h)

theorem State.load_frame_of_le (h : image.length ≤ 3584) : { s.load image with mem := s.mem } = s := by
  rw [State.load_of_le h, State.writeBytes_frame]

/-- Settles O50, on both sides of `MAX_IMAGE`: a store from 0x200, or a fault raised at `pc`, which Faulted ignores. -/
theorem loadCopiesTheImageOrFaults : Obligations.LoadCopiesTheImageOrFaults := by
  refine fun s image => ⟨fun hle => ?_, fun hgt => ?_⟩
  · exact ⟨_, rfl, State.readByte_load_of_le hle, State.load_bytesKept_of_le hle, State.load_frame_of_le hle,
      respond_load_of_le hle⟩
  · refine ⟨_, rfl, respond_load_of_gt hgt, fun hm => ?_, fun hm => ?_⟩
    · rw [State.load_of_gt hgt]
      exact faultedWith_raise hm _ _
    · rw [State.load_of_gt hgt, State.raise_of_faulted s hm]

/-! ### Reset (R260) and boot (R270) -/

/-- After reset nothing is listed, so every byte is the reset content of its address. -/
@[simp] theorem State.readByte_resetNow (s : State) (a : Addr) : s.resetNow.readByte a = s.cfg.resetByte a.toNat := rfl

theorem State.readByte_resetNow_font (hc : s.cfg.wf = true) (k : Fin 80) :
    s.resetNow.readByte (addrOf (s.cfg.fontBase.toNat + k.val)) = s.cfg.fontData[k.val] := by
  have hbase := s.cfg.fontBase_add_le_of_wf hc
  rw [State.readByte_resetNow, addrOf_toNat _ (by omega), s.cfg.resetByte_fontBase_add]

theorem State.readReg_resetNow (s : State) (x : RegIdx) : s.resetNow.readReg x = 0 :=
  Vector.getElem_replicate x.isLt

theorem State.stack_resetNow (s : State) (k : Fin 16) : s.resetNow.stack[k.val] = 0 :=
  Vector.getElem_replicate k.isLt

/-- Settles O49, item by item. -/
theorem resetSetsEveryItemButTheKeys : Obligations.ResetSetsEveryItemButTheKeys := fun s hc =>
  ⟨s.resetNow, rfl, s.readReg_resetNow, rfl, rfl, s.stack_resetNow, rfl, rfl, rfl, Display.pixel_clear, rfl, rfl, rfl,
    fun _ => rfl, State.readByte_resetNow_font hc, fun _ => s.cfg.resetByte_outside_font⟩

/-- Settles O51: the load after reset writes the image and leaves reset's mode, pc and fault record. -/
theorem bootPlacesTheProgramAtTheEntryPoint : Obligations.BootPlacesTheProgramAtTheEntryPoint := by
  intro s image h
  have hframe : { s.boot image with mem := s.resetNow.mem } = s.resetNow := State.load_frame_of_le h
  exact ⟨s.boot image, runTransactions_boot image, congrArg State.mode hframe, congrArg State.pc hframe,
    congrArg State.fault hframe, State.readByte_load_of_le h⟩

end Sys2Proof.Machine
end
